-- ==== Sys2Proof/Word.lean ====
section
/-! DEFINITION. The word types of the block: 32-bit register words (R6, R70), bytes, and the
40-bit sprite record word of the sprite read port (R28, R52). -/

namespace Sys2Proof

/-- A 32-bit command word or register word (R6, R70). -/
abbrev Word := BitVec 32

/-- One byte of sprite storage (R53). -/
abbrev Byte := BitVec 8

/-- The 40-bit record word the sprite read port returns (R28, R52). -/
abbrev Record := BitVec 40

/-- CAP_MAX (R6): no capacity exceeds 255. -/
abbrev capMax : Nat := 255

/-- An index of caller-owned sprite storage, 0 to 254 (R6, R33: 40 × CAP_MAX bits). -/
abbrev SpriteIndex := Fin capMax

end Sys2Proof
end

