-- ==== Sys2Proof/Syntax.lean ====
section
/-! DEFINITION. The commands, one constructor per row of spec/opcode_table.json (R73). An operand is
the number the assembler reads (R77); WellFormed bounds it. -/

namespace Sys2Proof

inductive Instr where
  /-- `CFG #n`: bind the capacity to n (R90). -/
  | cfg (n : Nat)
  /-- `SCAN #s`: find the first overlapping pair at or after index s, output present (R100). -/
  | scan (start : Nat)
  /-- `SCAN.NOOUT #s`: the same with the output reference absent (R100). -/
  | scanNoOut (start : Nat)
  deriving DecidableEq, Repr

/-- The only pseudo-instruction, `SCANALL`, stands for `SCAN #0` (R78). -/
def Instr.scanAll : Instr := .scan 0

/-- The operand a command carries in OPND (R71). -/
def Instr.operand : Instr → Nat
  | .cfg n => n
  | .scan start => start
  | .scanNoOut start => start

end Sys2Proof
end

