-- ==== Sys2Proof/WellFormed.lean ====
section
/-! DEFINITION. The one check on a command as written: its operand is 0 to 0xFFFF (R77). -/

namespace Sys2Proof

/-- "An assembler rejects an operand outside 0 to 0xFFFF" (R77). -/
abbrev Instr.WellFormed (i : Instr) : Prop := i.operand ≤ 0xFFFF

end Sys2Proof
end

