-- ==== Sys2Proof/Decode.lean ====
section
/-! DEFINITION. The command word's fields, the decoder (total on all 2^32 words), the encoder, and the
opcode map of R73 as match and mask rows. A command is exactly one 32-bit word (R70, R76). -/

namespace Sys2Proof

/-- OP, bits [31:28] (R71). -/
def opField (w : Word) : BitVec 4 := w.extractLsb' 28 4

/-- OUTV, bit [27] (R71). -/
def outvField (w : Word) : Bool := w.getLsbD 27

/-- RSV, bits [26:16] (R71). -/
def rsvField (w : Word) : BitVec 11 := w.extractLsb' 16 11

/-- OPND, bits [15:0] (R71), unsigned and never sign-extended (R72). -/
def opndField (w : Word) : BitVec 16 := w.extractLsb' 0 16

/-- Why a word is a reserved encoding (the three classes of R74). The machine answers each with
FAILED_OP; none is refused. -/
inductive Reserved where
  /-- OP is none of 0x1 and 0x2. -/
  | opcode (op : BitVec 4)
  /-- OP = 0x1 with OUTV = 1. -/
  | cfgOutv
  /-- OP = 0x1 with RSV ≠ 0. -/
  | cfgRsv
  /-- OP = 0x2 with RSV ≠ 0. -/
  | scanRsv
  deriving DecidableEq, Repr

/-- The decoding half of `Execute(w)` (R79): the command a word selects, or the class of R74 that makes
it reserved. -/
def decode (w : Word) : Except Reserved Instr :=
  if opField w = 0x1#4 then
    if outvField w then .error .cfgOutv
    else if rsvField w = 0#11 then .ok (.cfg (opndField w).toNat)
    else .error .cfgRsv
  else if opField w = 0x2#4 then
    if rsvField w = 0#11 then
      if outvField w then .ok (.scan (opndField w).toNat)
      else .ok (.scanNoOut (opndField w).toNat)
    else .error .scanRsv
  else .error (.opcode (opField w))

/-- The word with the fields OP, OUTV, RSV = 0 and OPND, most significant first (R71). -/
def packWord (op : BitVec 4) (outv : BitVec 1) (opnd : Nat) : Word :=
  op ++ outv ++ 0#11 ++ BitVec.ofNat 16 opnd

/-- The word of a command (R77). For an ill-formed command the operand's high bits are lost. -/
def encode : Instr → Word
  | .cfg n => packWord 0x1#4 0#1 n
  | .scan start => packWord 0x2#4 1#1 start
  | .scanNoOut start => packWord 0x2#4 0#1 start

/-- The command that a word of the opcode table stands for, read by `decode`; none for a reserved word.
Bits at and above `nbits` are 0. -/
def decodeTableWord (nbits w : Nat) : Option Instr :=
  match decode (BitVec.ofNat 32 (w % 2 ^ nbits)) with
  | .ok i => some i
  | .error _ => none

/-- One row of the opcode map (R73). -/
structure OpRow where
  name : String
  pattern : Word
  mask : Word
  deriving DecidableEq, Repr

/-- "A word selects a command when `(word & mask) == match`" (R73). -/
def OpRow.selects (r : OpRow) (w : Word) : Bool := (w &&& r.mask) == r.pattern

/-- The opcode map as opcode_table.json gives it, SCAN as two rows (R73). -/
def opcodeMap : List OpRow :=
  [ ⟨"CFG", 0x10000000#32, 0xFFFF0000#32⟩,
    ⟨"SCAN", 0x28000000#32, 0xFFFF0000#32⟩,
    ⟨"SCAN.NOOUT", 0x20000000#32, 0xFFFF0000#32⟩ ]

/-- A command's row in the opcode map (R73). -/
def Instr.row : Instr → OpRow
  | .cfg _ => ⟨"CFG", 0x10000000#32, 0xFFFF0000#32⟩
  | .scan _ => ⟨"SCAN", 0x28000000#32, 0xFFFF0000#32⟩
  | .scanNoOut _ => ⟨"SCAN.NOOUT", 0x20000000#32, 0xFFFF0000#32⟩

end Sys2Proof
end

