-- ==== Sys2Proof/Config.lean ====
section
/-! DEFINITION. What an implementation fixes: the variant parameters of R7 (a model argument each),
the platform parameters REG_BASE, SPR_BASE and the storage
layout (R7, R53, R59, U12), and the free values the spec leaves
open (rows U7 and U9 of 93_implementation_defined.md). Free values are opaque: nothing can be
proved about one of them. -/

namespace Sys2Proof

/-- P_EXTENT_BIAS (R7, U1): the number added to a width or height field. -/
inductive ExtentBias where
  | one
  | two
  deriving DecidableEq, Repr

/-- P_TOUCH (R7, U2): whether boxes that share only an edge overlap. -/
inductive Touch where
  | exclusive
  | inclusive
  deriving DecidableEq, Repr

/-- P_EXTENT_WRAP (R7, U3): whether a box's end is taken modulo 256. -/
inductive ExtentWrap where
  | wide
  | wrap8
  deriving DecidableEq, Repr

/-- How the platform keeps sprite records in byte-addressed storage (R53, U12). Every layout presents R52's
word on the port. -/
inductive Layout where
  /-- The layout R53 gives: five bytes a record, x, y, velocity, flags, animation. -/
  | packed
  /-- Another layout (U12): entry `5*k + b` is the offset from SPR_BASE of the byte that holds field `b` of
  record `k`, the fields numbered in R52's order. A record with a missing entry has no whole place in storage. -/
  | table (offsets : List Nat)
  deriving DecidableEq, Repr

/-- A layout a platform can have: each field of each of the 255 records has a byte of its own. -/
def Layout.ok : Layout → Bool
  | .packed => true
  | .table offsets => decide (offsets.length = 5 * capMax) && decide offsets.Nodup

/-- The parameters of one implementation. Every statement about every state holds for each value of
them, since State carries them and no step changes them (R33, last row). -/
structure Config where
  /-- P_EXTENT_BIAS. -/
  extentBias : ExtentBias
  /-- P_TOUCH. -/
  touch : Touch
  /-- P_EXTENT_WRAP. -/
  extentWrap : ExtentWrap
  /-- P_REQUIRE_ALIVE (R7, U4): whether the alive bit gates the scan. -/
  requireAlive : Bool
  /-- REG_BASE (R7, R59, U5): the host byte address of the register window. OPEN in the spec. -/
  regBase : Nat
  /-- SPR_BASE (R53): the byte address of the bound sprite storage, of record 0 in R53's layout. -/
  sprBase : Nat
  /-- The storage layout of sprite records (R53, U12). -/
  layout : Layout
  /-- Whether the platform's storage can tear a record while it is written (R67, last sentence).
  False on the port R54 describes. -/
  tearing : Bool
  deriving DecidableEq, Repr

/-- The default values this hardware takes (R7). REG_BASE and SPR_BASE have none in the spec: the two
values here are a DESIGN CHOICE (assumption 1), unsafe, and no statement rests on them. -/
def Config.default : Config where
  extentBias := .one
  touch := .exclusive
  extentWrap := .wide
  requireAlive := false
  regBase := 0
  sprBase := 16
  layout := .packed
  tearing := false

/-- REG_BASE is aligned to 16 bytes (R7), and the layout keeps every record whole (R53, U12). -/
abbrev Config.wf (c : Config) : Prop := c.regBase % 16 = 0 ∧ c.layout.ok = true

/-- FREE VALUE (R67, U9): which of the values a record held during a command one read returns.
`fresh` is the machine's counter of free values, `field` the part of the record drawn. -/
opaque Config.drawIndex (fresh field : Nat) : Nat

/-- FREE VALUE (R33, R150, U7): what CUR_I holds once the sequencer is IDLE. -/
opaque Config.idleCurI (fresh : Nat) : BitVec 8

/-- FREE VALUE (R33, R150, U7): what CUR_J holds once the sequencer is IDLE. -/
opaque Config.idleCurJ (fresh : Nat) : BitVec 8

/-- FREE VALUE (R33, R150, U7): what A_LAT holds once the sequencer is IDLE. -/
opaque Config.idleALat (fresh : Nat) : Record

end Sys2Proof
end

