-- ==== Sys2Proof/Machine/State.lean ====
section
/-! DEFINITION. The state of the block and of what stands around it: the four port registers, the
sequencer (R21), the caller-owned sprite storage (R50, R53), the implementation's parameters (R7),
the host's coming actions (R66), and counters of the model's own. Plain data. -/

namespace Sys2Proof.Machine

/-- PHASE (R21). -/
inductive Phase where
  | idle
  | scanning
  deriving DecidableEq, Repr

/-- The place in the pseudocode of R110 at which the next micro-step starts. The MODEL's own: R110 names
the places and R21 lists no register for them (assumption 6). -/
inductive SeqLabel where
  | outer
  | inner
  | nextI
  deriving DecidableEq, Repr

/-- A list of address and byte pairs, addresses strictly rising. An unlisted address has never been
written and reads as nothing (R154, U8). -/
abbrev Memory := List Host.Cell

/-- What may end a command from outside while it runs. -/
inductive Disturbance where
  /-- Nothing does. -/
  | none
  /-- Reset arrives after so many micro-steps of the sequencer, or at the command's completion if it
  takes fewer (R151). -/
  | resetAfter (microSteps : Nat)
  /-- The port answers so many reads of the command and never the one after them (R161, U11). -/
  | portSilentAfter (reads : Nat)
  deriving DecidableEq, Repr

/-- What the outside world does while one command is in progress. `writes` are sprite-memory writes that
overlap the command and so break the duty of R66 (R67). -/
structure Overlap where
  writes : List (SpriteIndex × Record)
  disturbance : Disturbance
  deriving DecidableEq, Repr

/-- Nothing overlaps the command: the conditions (b) to (d) of R61. -/
def Overlap.quiet : Overlap where
  writes := []
  disturbance := .none

/-- One action of the host (R66). A write carries what overlaps the command it may issue. -/
inductive HostAction where
  /-- A write of `width` bytes at byte address `addr` (R55). -/
  | write (addr width : Nat) (value : Word) (overlap : Overlap)
  /-- A read of `width` bytes at byte address `addr` (R55). -/
  | read (addr width : Nat)
  /-- A write of one record of the caller-owned storage, through the host's own path (R50, R66). -/
  | spriteWrite (k : SpriteIndex) (record : Record)
  /-- The reset signal, between commands (R66, R150). -/
  | reset
  deriving DecidableEq, Repr

structure State where
  /-- STATUS.CODE (R23). -/
  status : BitVec 8
  /-- RESULT (R25). -/
  result : BitVec 16
  /-- CAPACITY.CAP (R26). -/
  cap : BitVec 8
  /-- PHASE (R21). -/
  phase : Phase
  /-- CUR_I (R21). -/
  curI : BitVec 8
  /-- CUR_J (R21). -/
  curJ : BitVec 8
  /-- A_LAT (R21). -/
  aLat : Record
  /-- Where in R110's pseudocode the sequencer stands. Model's own. -/
  label : SeqLabel
  /-- The caller-owned sprite storage, byte-addressed, in the platform's layout (R53, U12). -/
  storage : Memory
  /-- The parameters of R7 and R53, fixed by the implementation. -/
  cfg : Config
  /-- The host's coming actions, the next one first (R66). -/
  host : List HostAction
  /-- What overlaps the command in progress (R67, R151, R161). -/
  overlap : Overlap
  /-- The word the host's last register read got back (R66). -/
  rdata : Word
  /-- How many `SprRead`s the sequencer has been answered. Model's own, for R115. -/
  reads : Nat
  /-- How many free values have been taken. Model's own. -/
  fresh : Nat
  deriving DecidableEq, Repr

/-- Why the machine stops with a fault. -/
inductive Fault where
  /-- `SprRead` of a record not written since power-on (R154, U8). Raised by the sequencer. Safe: the
  hardware goes on with whatever the storage holds. -/
  | unwrittenRecord (k : BitVec 8)
  /-- `SprRead` of an index at or above CAP, which sprite space does not have (R50, R51). Raised by the
  sequencer, in no state a run from reset reaches. Safe. -/
  | spriteIndexOutOfRange (k : BitVec 8)
  /-- STUCK: the sprite read port never answers, and the command and the host's write hang (R161, U11).
  Raised by the sequencer. Safe. -/
  | spritePortSilent
  deriving DecidableEq, Repr

/-- Why the machine gives an action no meaning. -/
inductive Refusal where
  /-- A command that has no meaning yet, by its mnemonic. Raised by exec; safe. -/
  | notModelled (mnemonic : String)
  /-- A register access of another width than 4, or misaligned: "a model must refuse" it (R56, U6).
  Raised by a host access; safe. -/
  | registerAccessUndefined
  /-- A host access outside the block's 16-byte window (R27, R59): the platform's, not the block's.
  Raised by a host access; safe. -/
  | outsideWindow
  deriving DecidableEq, Repr

/-- The block right after reset (R33, R150), with sprite storage that nothing has written, the default
parameters and an idle host. CUR_I, CUR_J and A_LAT are unspecified: zero is a DESIGN CHOICE
(assumption 2), unsafe, as are the values of the model's own fields; no statement rests on them. -/
def State.reset : State where
  status := 0x00
  result := 0x0000
  cap := 0
  phase := .idle
  curI := 0
  curJ := 0
  aLat := 0
  label := .outer
  storage := []
  cfg := Config.default
  host := []
  overlap := Overlap.quiet
  rdata := 0
  reads := 0
  fresh := 0

end Sys2Proof.Machine
end

