-- ==== Sys2Proof/Machine/Flags.lean ====
section
/-! DEFINITION. The status byte: the named codes of R24, the combinations the block writes, and the set
of values STATUS.CODE can hold (R24, R133). The block has no other flag (R117). -/

namespace Sys2Proof.Machine

/-- OK (R24). -/
def codeOk : BitVec 8 := 0x00

/-- INVALID_INPUT, bit 0 (R24). -/
def codeInvalidInput : BitVec 8 := 0x01

/-- MAX_SPRITES_EXCEEDED, bit 1 (R24). -/
def codeMaxSpritesExceeded : BitVec 8 := 0x02

/-- COLLISION_DETECTED, bit 4 (R24). A result, not a failure (R132). -/
def codeCollisionDetected : BitVec 8 := 0x10

/-- DOWNSTREAM_ERROR, bit 5 (R24). Never produced (R133). -/
def codeDownstreamError : BitVec 8 := 0x20

/-- FAILED_OP, bit 6 (R24): a reserved encoding (R74). -/
def codeFailedOp : BitVec 8 := 0x40

/-- UNKNOWN_ERROR, bit 7 (R24). Never produced (R133). -/
def codeUnknownError : BitVec 8 := 0x80

/-- A start at or above the capacity: the two bits ORed (R100, R132). -/
def codeStartTooHigh : BitVec 8 := codeInvalidInput ||| codeMaxSpritesExceeded

/-- "Every value the block writes is one of 0x00, 0x01, 0x03, 0x10 and 0x40" (R24, R133, U15). -/
abbrev legalCode (c : BitVec 8) : Prop :=
  c = codeOk ∨ c = codeInvalidInput ∨ c = codeStartTooHigh ∨ c = codeCollisionDetected ∨ c = codeFailedOp

end Sys2Proof.Machine
end

