-- ==== Sys2Proof/Machine/Operands.lean ====
section
/-! DEFINITION. The fields of a sprite record word (R28 to R30, R52), its byte layout in storage (R53),
and RESULT's encoding of a pair (R25, R108). Every field is unsigned (R8). -/

namespace Sys2Proof.Machine

/-- x, bits [7:0] of the record word: the low byte of `address` (R29, R52). -/
def recX (r : Record) : BitVec 8 := r.extractLsb' 0 8

/-- y, bits [15:8]: the high byte of `address` (R29, R52). -/
def recY (r : Record) : BitVec 8 := r.extractLsb' 8 8

/-- velocity, bits [23:16] (R52). The block never reads it (R31). -/
def recVel (r : Record) : BitVec 8 := r.extractLsb' 16 8

/-- flags, bits [31:24] (R52). -/
def recFlags (r : Record) : BitVec 8 := r.extractLsb' 24 8

/-- animation, bits [39:32] (R52). The block never reads it (R31). -/
def recAnim (r : Record) : BitVec 8 := r.extractLsb' 32 8

/-- The record word with these fields, `{anim, flags, vel, y, x}` (R52). -/
def packRecord (x y vel flags anim : BitVec 8) : Record := anim ++ flags ++ vel ++ y ++ x

/-- COLL, flags[0]: collision-enabled (R30). -/
def flagColl (f : BitVec 8) : Bool := f.getLsbD 0

/-- ALIVE, flags[2] (R30). -/
def flagAlive (f : BitVec 8) : Bool := f.getLsbD 2

/-- WF, flags[5:4]: the width field (R30). -/
def flagWidth (f : BitVec 8) : BitVec 2 := f.extractLsb' 4 2

/-- HF, flags[7:6]: the height field (R30). -/
def flagHeight (f : BitVec 8) : BitVec 2 := f.extractLsb' 6 2

/-- Byte `b` of a record as byte-addressed storage holds it: x, y, velocity, flags, animation (R53). -/
def recByte (r : Record) (b : Nat) : Byte := r.extractLsb' (8 * b) 8

/-- RESULT for the pair (i, j): `(zext_16(i) << 8) | zext_16(j)` (R100, R108). -/
def encodePair (i j : BitVec 8) : BitVec 16 := (i.setWidth 16 <<< 8) ||| j.setWidth 16

/-- RESULT.I, bits [15:8] (R25). -/
def resultI (v : BitVec 16) : BitVec 8 := v.extractLsb' 8 8

/-- RESULT.J, bits [7:0] (R25). -/
def resultJ (v : BitVec 16) : BitVec 8 := v.extractLsb' 0 8

end Sys2Proof.Machine
end

