-- ==== Sys2Proof/Machine/Ops.lean ====
section
/-! DEFINITION. The shared operations: sprite storage (R53, U12), the sprite read port (R51, R54, R67), the
two ways a command ends (R9, R131), going IDLE, reset (R150), and closing a command (R61, R67, R151).
`raiseStatus` is the whole of taking an error: the block has no trap and nothing to return from (R130). -/

namespace Sys2Proof.Machine

/-! Storage. -/

/-- The byte at address `a`; none where nothing has been written (R154). -/
def Memory.read : Memory → Nat → Option Byte
  | [], _ => none
  | (a', b) :: m, a => if a = a' then some b else Memory.read m a

/-- Storage after byte `b` is written at address `a`. -/
def Memory.write : Memory → Nat → Byte → Memory
  | [], a, b => [(a, b)]
  | (a', b') :: m, a, b =>
    if a < a' then (a, b) :: (a', b') :: m
    else if a = a' then (a, b) :: m
    else (a', b') :: Memory.write m a b

/-- The canonical form: addresses strictly rising. -/
abbrev Memory.wf (m : Memory) : Prop := m.Pairwise fun p q => p.1 < q.1

/-- The byte at a place in storage; none where there is no such place. -/
def Memory.readPlace (m : Memory) : Option Nat → Option Byte
  | some a => m.read a
  | none => none

/-- Storage after byte `b` is written at a place; unchanged where there is no such place. -/
def Memory.writePlace (m : Memory) (p : Option Nat) (b : Byte) : Memory :=
  match p with
  | some a => m.write a b
  | none => m

/-- The offset from SPR_BASE of byte `b` of record `k`: `5*k + b` in R53's layout, the platform's own in
another (U12). -/
def recOffset (l : Layout) (k b : Nat) : Option Nat :=
  match l with
  | .packed => some (5 * k + b)
  | .table offsets => offsets[5 * k + b]?

/-- The place of byte `b` of record `k` in the platform's layout (R53, U12). -/
def recAddr (c : Config) (k b : Nat) : Option Nat := (recOffset c.layout k b).map fun o => c.sprBase + o

/-- Record `k` as R52's word, whatever the layout; none unless all five of its bytes have been written
(R53, R154). -/
def readRecord (m : Memory) (c : Config) (k : Nat) : Option Record :=
  match m.readPlace (recAddr c k 0), m.readPlace (recAddr c k 1), m.readPlace (recAddr c k 2),
    m.readPlace (recAddr c k 3), m.readPlace (recAddr c k 4) with
  | some b0, some b1, some b2, some b3, some b4 => some (packRecord b0 b1 b2 b3 b4)
  | _, _, _, _, _ => none

/-- Storage after record `k` is written: its five bytes, each at its place (R53, U12). -/
def writeRecord (m : Memory) (c : Config) (k : Nat) (r : Record) : Memory :=
  ((((m.writePlace (recAddr c k 0) (recByte r 0)).writePlace (recAddr c k 1) (recByte r 1)).writePlace
    (recAddr c k 2) (recByte r 2)).writePlace (recAddr c k 3) (recByte r 3)).writePlace
    (recAddr c k 4) (recByte r 4)

/-- Storage after record writes, the first one first. -/
def writeRecords (c : Config) : List (SpriteIndex × Record) → Memory → Memory
  | [], m => m
  | (k, r) :: ws, m => writeRecords c ws (writeRecord m c k r)

/-- Record `k` of the bound storage. -/
def recordAt (s : State) (k : Nat) : Option Record := readRecord s.storage s.cfg k

/-! The sprite read port. -/

/-- The values record `k` holds during the command, the one at its start first (R67). -/
def heldValues (s : State) (k : Nat) : List (Option Record) :=
  recordAt s k :: (s.overlap.writes.filter fun w => decide (w.1.val = k)).map fun w => some w.2

/-- The value one draw picks, by a free value (R67, U9). -/
def drawHeld (vs : List (Option Record)) (fresh field : Nat) : Option Record :=
  vs.getD (Config.drawIndex fresh field % vs.length) none

/-- A record whose five fields are drawn separately (R67, last sentence). -/
def drawTorn (vs : List (Option Record)) (fresh : Nat) : Option Record :=
  match drawHeld vs fresh 0, drawHeld vs fresh 1, drawHeld vs fresh 2, drawHeld vs fresh 3,
    drawHeld vs fresh 4 with
  | some a, some b, some d, some e, some f =>
    some (packRecord (recX a) (recY b) (recVel d) (recFlags e) (recAnim f))
  | _, _, _, _, _ => none

/-- What the port holds ready for record `k`: its one value, or a draw where a write overlaps the command
(R51, R54, R67). -/
def portWord (s : State) (k : Nat) : Option Record :=
  match heldValues s k with
  | [v] => v
  | vs => if s.cfg.tearing then drawTorn vs s.fresh else drawHeld vs s.fresh 0

/-- One read fewer before the port falls silent. -/
def Overlap.afterRead (o : Overlap) : Overlap :=
  match o.disturbance with
  | .portSilentAfter (n + 1) => { o with disturbance := .portSilentAfter n }
  | _ => o

/-- The state after an answered read: no register and no storage changes (R51). -/
def State.countRead (s : State) : State :=
  { s with reads := s.reads + 1, fresh := s.fresh + 1, overlap := s.overlap.afterRead }

/-- `SprRead(k)` (R51). -/
def sprRead (s : State) (k : BitVec 8) : Except Fault (Record × State) :=
  if s.cap ≤ k then .error (.spriteIndexOutOfRange k)
  else if s.overlap.disturbance = .portSilentAfter 0 then .error .spritePortSilent
  else
    match portWord s k.toNat with
    | some r => .ok (r, s.countRead)
    | none => .error (.unwrittenRecord k)

/-! How a command ends. -/

/-- `raise STATUS(code)`: end the command, writing STATUS.CODE and nothing else (R131). -/
def State.raiseStatus (s : State) (code : BitVec 8) : State := { s with status := code }

/-- `finish(code)`: end the command normally (R9). -/
def State.finish (s : State) (code : BitVec 8) : State := { s with status := code }

/-- `reg[CAPACITY].CAP <- v` (R90). -/
def State.setCap (s : State) (v : BitVec 8) : State := { s with cap := v }

/-- `reg[RESULT] <- v` (R100). -/
def State.setResult (s : State) (v : BitVec 16) : State := { s with result := v }

/-- PHASE <- IDLE; the cursor and the latch then hold free values (R21, R33, U7). -/
def State.goIdle (s : State) : State :=
  { s with
    phase := .idle
    curI := Config.idleCurI s.fresh
    curJ := Config.idleCurJ s.fresh
    aLat := Config.idleALat s.fresh
    fresh := s.fresh + 1 }

/-- Reset: every register takes its reset value; sprite storage and the parameters stay (R33, R150). -/
def State.resetBlock (s : State) : State :=
  { s.goIdle with status := 0x00, result := 0x0000, cap := 0 }

/-- The sprite writes that overlapped the command are in storage now, and the overlap is over (R67). -/
def State.settleWrites (s : State) : State :=
  { s with
    storage := writeRecords s.cfg s.overlap.writes s.storage
    overlap := Overlap.quiet }

/-- The command is over: R67's writes are in, and a reset that arrived during it has taken effect (R151). -/
def State.closeCommand (s : State) : State :=
  match s.overlap.disturbance with
  | .resetAfter _ => s.settleWrites.resetBlock
  | _ => s.settleWrites

end Sys2Proof.Machine
end

