-- ==== Sys2Proof/Machine/Cfg.lean ====
section
/-! DEFINITION. The configuration command (R90) and the answer to a reserved word (R74). -/

namespace Sys2Proof.Machine

/-- `CFG #n` (R90): the check comes before any write. -/
def execCfg (n : Nat) (s : State) : Host.Outcome State Fault Refusal :=
  if 255 < n then .next (s.raiseStatus codeInvalidInput).closeCommand
  else .next ((s.setCap (BitVec.ofNat 8 n)).finish codeOk).closeCommand

/-- A reserved word completes at once with FAILED_OP and changes nothing else (R74). -/
def answerReserved (s : State) : Host.Outcome State Fault Refusal :=
  .next (s.raiseStatus codeFailedOp).closeCommand

end Sys2Proof.Machine
end

