-- ==== Sys2Proof/Machine/Geometry.lean ====
section
/-! DEFINITION. The pure functions of the scan (R101 to R105): which record takes part, its box, the
overlap test, and the first hit in scan order. Arithmetic is on naturals (R9, R117); the one place
that may wrap is a box's end under WRAP8. -/

namespace Sys2Proof.Machine

/-- `Collidable(R)` (R101). -/
def collidable (c : Config) (r : Record) : Bool :=
  flagColl (recFlags r) && (!c.requireAlive || flagAlive (recFlags r))

/-- P_EXTENT_BIAS as the number it is (R7). -/
def biasOf (c : Config) : Nat :=
  match c.extentBias with
  | .one => 1
  | .two => 2

/-- An axis-aligned bounding box: its top-left corner and its extent (R102). -/
structure Box where
  x0 : Nat
  y0 : Nat
  w : Nat
  h : Nat
  deriving DecidableEq, Repr

/-- `Box(R)` (R102). -/
def boxOf (c : Config) (r : Record) : Box where
  x0 := (recX r).toNat
  y0 := (recY r).toNat
  w := (flagWidth (recFlags r)).toNat + biasOf c
  h := (flagHeight (recFlags r)).toNat + biasOf c

/-- `End(p0, len)` (R103). -/
def boxEnd (c : Config) (p0 len : Nat) : Nat :=
  match c.extentWrap with
  | .wide => p0 + len
  | .wrap8 => (p0 + len) % 256

/-- `AxisOverlap(a0, alen, b0, blen)` (R103). -/
def axisOverlap (c : Config) (a0 alen b0 blen : Nat) : Bool :=
  match c.touch with
  | .exclusive => decide (a0 < boxEnd c b0 blen) && decide (b0 < boxEnd c a0 alen)
  | .inclusive => decide (a0 ≤ boxEnd c b0 blen) && decide (b0 ≤ boxEnd c a0 alen)

/-- `Overlap(A, B)`: the projections overlap on x and on y (R104). -/
def overlaps (c : Config) (a b : Record) : Bool :=
  axisOverlap c (boxOf c a).x0 (boxOf c a).w (boxOf c b).x0 (boxOf c b).w &&
    axisOverlap c (boxOf c a).y0 (boxOf c a).h (boxOf c b).y0 (boxOf c b).h

/-- Both records take part and their boxes overlap: the test a candidate pair meets (R105). -/
def hits (c : Config) (a b : Record) : Bool := collidable c a && (collidable c b && overlaps c a b)

/-- `FirstHit(s, cap)` over sprite memory `mem` (R105): i ascending, then j ascending. The sequencer does
not call it; that the two agree (R111) is a statement. -/
def firstHit (c : Config) (mem : Nat → Record) (start cap : Nat) : Option (Nat × Nat) :=
  (List.range' start (cap - 1 - start)).findSome? fun i =>
    if collidable c (mem i) then
      ((List.range' (i + 1) (cap - 1 - i)).find? fun j =>
        collidable c (mem j) && overlaps c (mem i) (mem j)).map fun j => (i, j)
    else none

/-- How many reads the sequencer of R110 issues in row `i` when the row has no hit: the record at i, and
each record above it below `cap` where the record at i takes part. -/
def rowReads (c : Config) (mem : Nat → Record) (cap i : Nat) : Nat :=
  1 + if collidable c (mem i) then cap - 1 - i else 0

/-- The reads of the rows `lo` to `hi - 1`, none of which has a hit (R110, R115). -/
def rowsReads (c : Config) (mem : Nat → Record) (cap lo hi : Nat) : Nat :=
  ((List.range' lo (hi - lo)).map (rowReads c mem cap)).sum

end Sys2Proof.Machine
end

