-- ==== Sys2Proof/Machine/Scan.lean ====
section
/-! DEFINITION. The collision scan (R100) and the sequencer that carries it out in micro-steps (R110). -/

namespace Sys2Proof.Machine

/-! The sequencer's state changes (R110). -/

/-- `PHASE <- SCANNING; CUR_I <- s; goto OUTER`. -/
def State.enterScan (s : State) (start : BitVec 8) : State :=
  { s with phase := .scanning, curI := start, label := .outer }

/-- `A_LAT <- r; CUR_J <- CUR_I + 1; goto INNER`. -/
def State.enterInner (s : State) (r : Record) : State :=
  { s with aLat := r, curJ := s.curI + 1, label := .inner }

/-- `A_LAT <- r; goto NEXT_I`. -/
def State.skipRow (s : State) (r : Record) : State := { s with aLat := r, label := .nextI }

/-- `CUR_J <- CUR_J + 1; goto INNER`. -/
def State.nextJ (s : State) : State := { s with curJ := s.curJ + 1, label := .inner }

/-- `goto NEXT_I`. -/
def State.endRow (s : State) : State := { s with label := .nextI }

/-- `CUR_I <- CUR_I + 1; goto OUTER`. -/
def State.nextRow (s : State) : State := { s with curI := s.curI + 1, label := .outer }

/-- `reg[RESULT] <- (CUR_I << 8) | CUR_J; PHASE <- IDLE; finish(0x10)`. -/
def State.reportHit (s : State) : State :=
  ((s.setResult (encodePair s.curI s.curJ)).goIdle).finish codeCollisionDetected

/-- `PHASE <- IDLE; finish(0x00)`. -/
def State.reportNone (s : State) : State := s.goIdle.finish codeOk

/-- OUTER of R110: read the record at CUR_I. -/
def stepOuter (s : State) : Host.Outcome State Fault Refusal :=
  match sprRead s s.curI with
  | .error f => .fault f
  | .ok (a, s') => if collidable s.cfg a then .next (s'.enterInner a) else .next (s'.skipRow a)

/-- INNER of R110: read the record at CUR_J and test the pair. -/
def stepInner (s : State) : Host.Outcome State Fault Refusal :=
  match sprRead s s.curJ with
  | .error f => .fault f
  | .ok (b, s') =>
    if collidable s.cfg b && overlaps s.cfg s.aLat b then .next s'.reportHit
    else if s.curJ.toNat + 1 < s.cap.toNat then .next s'.nextJ
    else .next s'.endRow

/-- NEXT_I of R110. -/
def stepNextI (s : State) : Host.Outcome State Fault Refusal :=
  if s.curI.toNat + 2 < s.cap.toNat then .next s.nextRow else .next s.reportNone

/-- One micro-step of the sequencer: at most one `SprRead` (R110). -/
def seqStep (s : State) : Host.Outcome State Fault Refusal :=
  match s.label with
  | .outer => stepOuter s
  | .inner => stepInner s
  | .nextI => stepNextI s

/-- At most so many micro-steps, stopping where the sequencer is IDLE. -/
def runSeq : Nat → State → Host.Outcome State Fault Refusal
  | 0, s => .next s
  | n + 1, s =>
    match s.phase with
    | .idle => .next s
    | .scanning =>
      match seqStep s with
      | .next s' => runSeq n s'
      | .fault f => .fault f
      | .refused r => .refused r

/-- More micro-steps than any scan below `cap` takes (R115). -/
def scanBound (cap : Nat) : Nat := (cap + 2) * (cap + 2)

/-- How many micro-steps the command may take: a reset cuts it off (R151). -/
def seqBudget (s : State) : Nat :=
  match s.overlap.disturbance with
  | .resetAfter n => min n (scanBound s.cap.toNat)
  | _ => scanBound s.cap.toNat

/-- Run the sequencer until the command is over and close the command (R61 (a), R110). -/
def runScan (s : State) : Host.Outcome State Fault Refusal :=
  match runSeq (seqBudget s) s with
  | .next s' => .next s'.closeCommand
  | .fault f => .fault f
  | .refused r => .refused r

/-- `SCAN(s, outv)` (R100): both checks before any `SprRead`, the start check first (R134); then R110. -/
def scanCommand (start : Nat) (outv : Bool) (s : State) : Host.Outcome State Fault Refusal :=
  if s.cap.toNat ≤ start then .next (s.raiseStatus codeStartTooHigh).closeCommand
  else if !outv then .next (s.raiseStatus codeInvalidInput).closeCommand
  else if s.cap.toNat ≤ start + 1 then .next (s.finish codeOk).closeCommand
  else runScan (s.enterScan (BitVec.ofNat 8 start))

/-- `SCAN #s` (R100). -/
def execScan (start : Nat) (s : State) : Host.Outcome State Fault Refusal := scanCommand start true s

/-- `SCAN.NOOUT #s` (R100). -/
def execScanNoOut (start : Nat) (s : State) : Host.Outcome State Fault Refusal := scanCommand start false s

end Sys2Proof.Machine
end

