-- ==== Sys2Proof/Machine/Dispatch.lean ====
section
/-! DEFINITION. The meaning of each command, one arm per constructor of Instr. -/

namespace Sys2Proof.Machine

def exec (i : Instr) (s : State) : Host.Outcome State Fault Refusal :=
  match i with
  | .cfg n => Sys2Proof.Machine.execCfg n s
  | .scan start => Sys2Proof.Machine.execScan start s
  | .scanNoOut start => Sys2Proof.Machine.execScanNoOut start s

end Sys2Proof.Machine
end

