-- ==== Sys2Proof/Machine/Port.lean ====
section
/-! DEFINITION. The register port (R55 to R59) and the host's actions (R66). -/

namespace Sys2Proof.Machine

/-- The four registers of the window (R22 to R26). -/
inductive PortReg where
  | cmd
  | status
  | result
  | capacity
  deriving DecidableEq, Repr

/-- The register at an offset (R55); none at an offset that is no multiple of 4. -/
def portReg (off : Nat) : Option PortReg :=
  match off with
  | 0x0 => some .cmd
  | 0x4 => some .status
  | 0x8 => some .result
  | 0xC => some .capacity
  | _ => none

/-- A byte address inside the window `[REG_BASE, REG_BASE + 0x10)` (R59). -/
abbrev inWindow (c : Config) (addr : Nat) : Prop := c.regBase ≤ addr ∧ addr < c.regBase + 0x10

/-- The register an access of `width` bytes at `addr` reaches. Any other width or alignment is refused
(R56), and so is an address outside the window (R27, R59). -/
def portAccess (c : Config) (addr width : Nat) : Except Refusal PortReg :=
  if inWindow c addr then
    if width = 4 then
      match portReg (addr - c.regBase) with
      | some reg => .ok reg
      | none => .error .registerAccessUndefined
    else .error .registerAccessUndefined
  else .error .outsideWindow

/-- The word a read of a register returns; reserved bits and CMD read 0 (R27, R55). -/
def regValue (s : State) : PortReg → Word
  | .cmd => 0
  | .status => s.status.setWidth 32
  | .result => s.result.setWidth 32
  | .capacity => s.cap.setWidth 32

/-- Byte `b` of a register as a byte-addressed bus sees it, bits [8b+7:8b] (R57). No defined access shows
it: the port is read in whole words (R56). -/
def regByte (s : State) (reg : PortReg) (b : Nat) : Byte := (regValue s reg).extractLsb' (8 * b) 8

/-- `Execute(w)` (R79): every word has exactly one outcome, and decoding comes before any other check. -/
def issueCommand (w : Word) (s : State) : Host.Outcome State Fault Refusal :=
  match Sys2Proof.decode w with
  | .ok i => exec i s
  | .error _ => answerReserved s

/-- What overlaps the command the host is about to issue. -/
def State.setOverlap (s : State) (o : Overlap) : State := { s with overlap := o }

/-- What the host's read got back. -/
def State.setRdata (s : State) (v : Word) : State := { s with rdata := v }

/-- The rest of the host's coming actions. -/
def State.setHost (s : State) (h : List HostAction) : State := { s with host := h }

/-- Sprite storage after a write of the host's own (R66). -/
def State.setStorage (s : State) (m : Memory) : State := { s with storage := m }

/-- `MemRead(addr, width)` (R55): no side effect on any register. -/
def hostRead (addr width : Nat) (s : State) : Host.Outcome State Fault Refusal :=
  match portAccess s.cfg addr width with
  | .ok reg => .next (s.setRdata (regValue s reg))
  | .error r => .refused r

/-- `MemWrite(addr, width, v)` (R55): a write to CMD issues v and ends when the command ends (R61); a write
to another register is ignored (R27). -/
def hostWrite (addr width : Nat) (v : Word) (o : Overlap) (s : State) : Host.Outcome State Fault Refusal :=
  match portAccess s.cfg addr width with
  | .ok .cmd => issueCommand v (s.setOverlap o)
  | .ok .status => .next s
  | .ok .result => .next s
  | .ok .capacity => .next s
  | .error r => .refused r

/-- One action of the host, the sequencer being IDLE (R66). -/
def hostAct (a : HostAction) (s : State) : Host.Outcome State Fault Refusal :=
  match a with
  | .write addr width v o => hostWrite addr width v o s
  | .read addr width => hostRead addr width s
  | .spriteWrite k r => .next (s.setStorage (writeRecord s.storage s.cfg k r))
  | .reset => .next s.resetBlock

/-- The host's next action, or nothing to do: the block holds its registers (R143). -/
def nextAction (s : State) : Host.Outcome State Fault Refusal :=
  match s.host with
  | [] => .next s
  | a :: rest => hostAct a (s.setHost rest)

/-- The host's write of command word `w` to CMD, with nothing overlapping it. -/
def commandWrite (c : Config) (w : Word) : HostAction := .write c.regBase 4 w Overlap.quiet

end Sys2Proof.Machine
end

