-- ==== Sys2Proof/Machine/Step.lean ====
section
/-! DEFINITION. One step of the whole machine. While the sequencer is SCANNING the host is held and the
command runs on to its end (R61); while it is IDLE the host's next action happens. -/

namespace Sys2Proof.Machine

def step (s : State) : Host.Outcome State Fault Refusal :=
  match s.phase with
  | .scanning => runScan s
  | .idle => nextAction s

/-- `s` with a write of the word to CMD as the host's next action and the sequencer IDLE, so that the next
step issues it (assumption 5). -/
def State.withFetchWord (s : State) (nbits w : Nat) : State :=
  { s with
    phase := .idle
    host := commandWrite s.cfg (BitVec.ofNat 32 (w % 2 ^ nbits)) :: s.host }

end Sys2Proof.Machine
end

