-- ==== Sys2Proof/Safety.lean ====
section
/-! DEFINITION. What a good state is, what the host owes the block (R66), and what a safe step is. -/

namespace Sys2Proof.Machine

/-- Every record at an index from `lo` to `hi - 1` has been written (R154). -/
abbrev recordsWritten (s : State) (lo hi : Nat) : Prop :=
  ∀ k, k < hi → lo ≤ k → (recordAt s k).isSome = true

/-- `mem` is what sprite memory holds at the indices `lo` to `hi - 1`, all of them written. -/
def memAgrees (s : State) (mem : Nat → Record) (lo hi : Nat) : Prop :=
  ∀ k, lo ≤ k → k < hi → recordAt s k = some (mem k)

/-- RESULT names no pair yet, or a pair I < J ≤ 254 (R108). -/
abbrev resultOk (v : BitVec 16) : Prop :=
  v = 0 ∨ (resultI v).toNat < (resultJ v).toNat ∧ (resultJ v).toNat ≤ 254

/-- What every step keeps: the block stands between two commands, STATUS.CODE is a value the block writes
(R133), RESULT names no pair or a legal one (R108), storage has its canonical form, REG_BASE is
aligned (R7) and the layout keeps records whole (R53, U12). -/
structure Inv (s : State) : Prop where
  idle : s.phase = .idle
  quiet : s.overlap = Overlap.quiet
  status : legalCode s.status
  result : resultOk s.result
  storage : Memory.wf s.storage
  cfg : Config.wf s.cfg

/-- Where the cursor stands while a scan runs: CUR_I is at most CAP-2 and CUR_J at most CAP-1 (R21), and a
row's partner lies above it (R105). -/
def SeqInv (s : State) : Prop :=
  s.phase = .scanning →
    s.curI.toNat + 2 ≤ s.cap.toNat ∧
      (s.label = .inner → s.curI.toNat < s.curJ.toNat ∧ s.curJ.toNat < s.cap.toNat)

/-- A defined register access: four bytes at a multiple of 4 inside the window (R56, R59). -/
abbrev definedAccess (c : Config) (addr width : Nat) : Prop :=
  width = 4 ∧ inWindow c addr ∧ (addr - c.regBase) % 4 = 0

/-- What the host owes the block for its next action (R66): defined accesses only; while a command runs
nothing writes sprite memory, the port answers and no reset comes; every record the command may read
has been written. -/
def hostDuties (s : State) : Prop :=
  match s.host with
  | [] => True
  | .read addr width :: _ => definedAccess s.cfg addr width
  | .write addr width _ o :: _ =>
    definedAccess s.cfg addr width ∧
      (addr = s.cfg.regBase → o = Overlap.quiet ∧ recordsWritten s 0 s.cap.toNat)
  | .spriteWrite _ _ :: _ => True
  | .reset :: _ => True

/-- A step that goes on: no fault and no refusal. -/
def goesOn (o : Host.Outcome State Fault Refusal) : Prop := ∃ t, o = .next t

end Sys2Proof.Machine
end

