-- ==== Sys2Proof/Certificates/Slice0/Obligations.lean ====
section
/-! DEFINITION. The statements for the provers, and the few relations they are worded with. -/

namespace Sys2Proof.Machine

/-- Every field of `t` a scan does not write is as in `s`, and the sequencer is IDLE. The fields named are
the ones a scan may write: STATUS, RESULT, the cursor and latch, and the model's own counters. -/
def onlyScanWrites (s t : State) : Prop :=
  t = { s with
    phase := .idle, status := t.status, result := t.result, curI := t.curI, curJ := t.curJ,
    aLat := t.aLat, label := t.label, reads := t.reads, fresh := t.fresh }

/-- A candidate pair of a scan (R105): both records take part and their boxes overlap. -/
def candidate (c : Config) (mem : Nat → Record) (start cap i j : Nat) : Prop :=
  start ≤ i ∧ i < j ∧ j < cap ∧ collidable c (mem i) = true ∧ collidable c (mem j) = true ∧
    overlaps c (mem i) (mem j) = true

/-- The records agree in all the scan reads of them (R113). -/
def sameForScan (c : Config) (r r' : Record) : Prop :=
  recX r = recX r' ∧ recY r = recY r' ∧ flagColl (recFlags r) = flagColl (recFlags r') ∧
    flagWidth (recFlags r) = flagWidth (recFlags r') ∧ flagHeight (recFlags r) = flagHeight (recFlags r') ∧
    (c.requireAlive = true → flagAlive (recFlags r) = flagAlive (recFlags r'))

/-- The two outcomes show a host the same: the same registers and storage, or the same stop. -/
def sameAnswer : Host.Outcome State Fault Refusal → Host.Outcome State Fault Refusal → Prop
  | .next t, .next u =>
    t.status = u.status ∧ t.result = u.result ∧ t.cap = u.cap ∧ t.phase = u.phase ∧ t.storage = u.storage
  | .fault f, .fault g => f = g
  | .refused r, .refused q => r = q
  | _, _ => False

/-- The two outcomes leave the same registers, or are the same stop. -/
def sameReply : Host.Outcome State Fault Refusal → Host.Outcome State Fault Refusal → Prop
  | .next t, .next u => t.status = u.status ∧ t.result = u.result ∧ t.cap = u.cap ∧ t.phase = u.phase
  | .fault f, .fault g => f = g
  | .refused r, .refused q => r = q
  | _, _ => False

/-- A word of R74: OP is neither 0x1 nor 0x2; or OP = 0x1 with OUTV = 1 or RSV ≠ 0; or OP = 0x2 with
RSV ≠ 0. -/
def reservedWord (w : Word) : Prop :=
  (opField w ≠ 0x1#4 ∧ opField w ≠ 0x2#4) ∨
    (opField w = 0x1#4 ∧ (outvField w = true ∨ rsvField w ≠ 0#11)) ∨
    (opField w = 0x2#4 ∧ rsvField w ≠ 0#11)

/-- The host's next action writes a word to CMD, or is reset. -/
def commandOrReset (s : State) : Prop :=
  ∃ a rest, s.host = a :: rest ∧
    (a = .reset ∨ ∃ w o, a = .write s.cfg.regBase 4 w o)

end Sys2Proof.Machine

open Sys2Proof Sys2Proof.Machine

/-! Encoding. -/

/-- Decoding the word of a well-formed command gives the command back, for every operand (R71 to R73). -/
def Obligations.DecodeOfEncode : Prop :=
  ∀ i : Instr, i.WellFormed → decode (encode i) = .ok i

/-- A word that decodes is the word of a well-formed command: each word has at most one meaning, and each
meaning one word (R70, R73). -/
def Obligations.EncodeOfDecode : Prop :=
  ∀ (w : Word) (i : Instr), decode w = .ok i → i.WellFormed ∧ encode i = w

/-- R73: a word decodes to a command exactly when it matches that command's row, and matches no other row;
it is reserved exactly when it matches none; and the two SCAN rows together select exactly the words of the
one SCAN row, match 0x20000000 and mask 0xF7FF0000. -/
def Obligations.DecodeFollowsOpcodeMap : Prop :=
  (∀ (w : Word) (i : Instr), decode w = .ok i →
    i.row ∈ opcodeMap ∧ ∀ r ∈ opcodeMap, r.selects w = true ↔ r = i.row) ∧
  (∀ (w : Word) (e : Reserved), decode w = .error e → ∀ r ∈ opcodeMap, r.selects w = false) ∧
  (∀ w : Word, (∃ e, decode w = .error e) ↔ ∀ r ∈ opcodeMap, r.selects w = false) ∧
  ∀ w : Word, (w &&& 0xF7FF0000#32) = 0x20000000#32 ↔
    ∃ n, decode w = .ok (.scan n) ∨ decode w = .ok (.scanNoOut n)

/-- R77: the encodings of the assembler's syntax. -/
def Obligations.EncodeIsTheAssemblersWord : Prop :=
  ∀ n : Nat, n ≤ 0xFFFF →
    encode (.cfg n) = 0x10000000#32 ||| BitVec.ofNat 32 n ∧
    encode (.scan n) = 0x28000000#32 ||| BitVec.ofNat 32 n ∧
    encode (.scanNoOut n) = 0x20000000#32 ||| BitVec.ofNat 32 n

/-- Words written out in 95_test_vectors.md decode to the commands they stand for. -/
def Obligations.SpecWordsDecode : Prop :=
  decode 0x10000004#32 = .ok (.cfg 4) ∧ decode 0x1000FFFF#32 = .ok (.cfg 0xFFFF) ∧
    decode 0x28000000#32 = .ok Instr.scanAll ∧ decode 0x28000100#32 = .ok (.scan 256) ∧
    decode 0x20000004#32 = .ok (.scanNoOut 4) ∧ decode 0x00000000#32 = .error (.opcode 0) ∧
    decode 0x18000004#32 = .error .cfgOutv ∧ decode 0x10010004#32 = .error .cfgRsv ∧
    decode 0x2FFF0000#32 = .error .scanRsv

/-- R74: a word of one of the three classes completes at once with FAILED_OP and changes no other state,
the count of `SprRead`s included. -/
def Obligations.ReservedWordFailsAlone : Prop :=
  ∀ (w : Word) (s : State), reservedWord w → s.overlap = Overlap.quiet →
    issueCommand w s = .next { s with status := 0x40 }

/-! CFG. -/

/-- R90: CFG binds a capacity up to 255 and answers OK; a larger one fails with INVALID_INPUT and leaves
CAPACITY; nothing else changes. The word `0x10000000 | n` is this command. -/
def Obligations.CfgResult : Prop :=
  ∀ (n : Nat) (s : State), s.overlap = Overlap.quiet →
    (n ≤ 255 → exec (.cfg n) s = .next { s with cap := BitVec.ofNat 8 n, status := 0x00 }) ∧
    (255 < n → exec (.cfg n) s = .next { s with status := 0x01 }) ∧
    (n ≤ 0xFFFF → issueCommand (0x10000000#32 ||| BitVec.ofNat 32 n) s = exec (.cfg n) s)

/-- "CAP is written only by a successful CFG" (R26): any other command, and a failed CFG, leave it, unless
reset arrives. -/
def Obligations.CapacityWrittenOnlyByCfg : Prop :=
  ∀ (i : Instr) (s t : State), (∀ n, s.overlap.disturbance ≠ .resetAfter n) → exec i s = .next t →
    t.cap ≠ s.cap → ∃ n, i = .cfg n ∧ n ≤ 255 ∧ t.cap = BitVec.ofNat 8 n ∧ t.status = 0x00

/-! SCAN: the checks. -/

/-- A start at or above the capacity fails with 0x03 in both SCAN forms and changes nothing else (R100). -/
def Obligations.ScanStartTooHighFails : Prop :=
  ∀ (n : Nat) (s : State), s.overlap = Overlap.quiet → s.cap.toNat ≤ n →
    exec (.scan n) s = .next { s with status := 0x03 } ∧
    exec (.scanNoOut n) s = .next { s with status := 0x03 }

/-- The whole effect R100 gives SCAN.NOOUT: it ends with 0x03 where the start is not below the capacity and
with 0x01 otherwise, and changes nothing but STATUS. The word `0x20000000 | n` is this command (R77). -/
def Obligations.ScanNoOutResult : Prop :=
  ∀ (n : Nat) (s : State), s.overlap = Overlap.quiet →
    exec (.scanNoOut n) s = .next { s with status := if s.cap.toNat ≤ n then 0x03 else 0x01 } ∧
    (n ≤ 0xFFFF → issueCommand (0x20000000#32 ||| BitVec.ofNat 32 n) s = exec (.scanNoOut n) s)

/-- A scan from the last index answers OK with no `SprRead` and changes nothing else (R100, R110). -/
def Obligations.ScanFromLastIndexIsEmpty : Prop :=
  ∀ (n : Nat) (s : State), s.overlap = Overlap.quiet → n + 1 = s.cap.toNat →
    exec (.scan n) s = .next { s with status := 0x00 }

/-- R134: of the conditions a word meets, the first in the order reserved, start too high, output absent,
capacity too large is the one reported. -/
def Obligations.ReportedCodeFollowsPriority : Prop :=
  ∀ (w : Word) (s : State), s.overlap = Overlap.quiet →
    let n := (opndField w).toNat
    (reservedWord w → issueCommand w s = .next { s with status := 0x40 }) ∧
    (¬ reservedWord w → opField w = 0x2#4 → s.cap.toNat ≤ n →
      issueCommand w s = .next { s with status := 0x03 }) ∧
    (¬ reservedWord w → opField w = 0x2#4 → n < s.cap.toNat → outvField w = false →
      issueCommand w s = .next { s with status := 0x01 }) ∧
    (¬ reservedWord w → opField w = 0x1#4 → 255 < n → issueCommand w s = .next { s with status := 0x01 })

/-- R153: before any successful CFG the capacity is 0, as reset leaves it, and a SCAN completes with 0x03 and
no `SprRead`; the first command after reset included. -/
def Obligations.ScanBeforeCfgFails : Prop :=
  (∀ (n : Nat) (s : State), s.cap = 0 → s.overlap = Overlap.quiet →
    exec (.scan n) s = .next { s with status := 0x03 } ∧
    exec (.scanNoOut n) s = .next { s with status := 0x03 }) ∧
  ∀ n : Nat, n ≤ 0xFFFF → ∃ t,
    step (State.reset.withFetchWord 32 (encode (.scan n)).toNat) = .next t ∧
    t.status = 0x03 ∧ t.result = State.reset.result ∧ t.cap = 0 ∧ t.reads = State.reset.reads

/-! SCAN: the pure functions. -/

/-- R101: a record takes part when its collision bit is set and, under P_REQUIRE_ALIVE, its alive bit. -/
def Obligations.CollidableReadsTwoBits : Prop :=
  ∀ (c : Config) (r : Record),
    collidable c r = true ↔
      (recFlags r).getLsbD 0 = true ∧ (c.requireAlive = true → (recFlags r).getLsbD 2 = true)

/-- R102: the box has its corner at (x, y) and extents of 1 to 5, each a flag field plus the bias. -/
def Obligations.BoxFollowsFlags : Prop :=
  ∀ (c : Config) (r : Record),
    (boxOf c r).x0 = r.toNat % 256 ∧ (boxOf c r).y0 = r.toNat / 256 % 256 ∧
    (boxOf c r).w = r.toNat / 2 ^ 28 % 4 + biasOf c ∧ (boxOf c r).h = r.toNat / 2 ^ 30 % 4 + biasOf c ∧
    1 ≤ (boxOf c r).w ∧ (boxOf c r).w ≤ 5 ∧ 1 ≤ (boxOf c r).h ∧ (boxOf c r).h ≤ 5

/-- The separating-axis test (R104) under WIDE: boxes are apart when one lies wholly to the left of or
above the other, and an edge in common counts as apart only under EXCLUSIVE. -/
def Obligations.BoxesApartOnOneAxis : Prop :=
  ∀ (c : Config) (a b : Record), c.extentWrap = .wide →
    let A := boxOf c a
    let B := boxOf c b
    (c.touch = .exclusive → (overlaps c a b = false ↔
      B.x0 + B.w ≤ A.x0 ∨ A.x0 + A.w ≤ B.x0 ∨ B.y0 + B.h ≤ A.y0 ∨ A.y0 + A.h ≤ B.y0)) ∧
    (c.touch = .inclusive → (overlaps c a b = false ↔
      B.x0 + B.w < A.x0 ∨ A.x0 + A.w < B.x0 ∨ B.y0 + B.h < A.y0 ∨ A.y0 + A.h < B.y0))

/-- With the defaults, boxes overlap exactly when they share a cell (R103). -/
def Obligations.WideExclusiveOverlapIsASharedCell : Prop :=
  ∀ (c : Config) (a b : Record), c.extentWrap = .wide → c.touch = .exclusive →
    let A := boxOf c a
    let B := boxOf c b
    (overlaps c a b = true ↔ ∃ x y : Nat,
      (A.x0 ≤ x ∧ x < A.x0 + A.w ∧ A.y0 ≤ y ∧ y < A.y0 + A.h) ∧
        B.x0 ≤ x ∧ x < B.x0 + B.w ∧ B.y0 ≤ y ∧ y < B.y0 + B.h)

/-- "Under WRAP8, a box whose end wraps overlaps no box on that axis, under either P_TOUCH" (R103). -/
def Obligations.WrappedBoxOverlapsNothing : Prop :=
  ∀ (c : Config) (a0 alen b0 blen : Nat), c.extentWrap = .wrap8 → a0 < 256 → b0 < 256 →
    1 ≤ alen → alen ≤ 5 → 1 ≤ blen → blen ≤ 5 → 256 ≤ a0 + alen →
    axisOverlap c a0 alen b0 blen = false ∧ axisOverlap c b0 blen a0 alen = false

/-- The overlap test is symmetric (R112). -/
def Obligations.OverlapIsSymmetric : Prop :=
  ∀ (c : Config) (a b : Record), overlaps c a b = overlaps c b a

/-- A record overlaps itself under WIDE always, and under WRAP8 exactly when neither end wraps (R112). -/
def Obligations.SelfOverlap : Prop :=
  ∀ (c : Config) (a : Record),
    (c.extentWrap = .wide → overlaps c a a = true) ∧
    (c.extentWrap = .wrap8 → (overlaps c a a = true ↔
      (boxOf c a).x0 + (boxOf c a).w < 256 ∧ (boxOf c a).y0 + (boxOf c a).h < 256))

/-- R105: the two wordings of FirstHit agree: the loop gives the lexicographically least candidate pair,
and gives none exactly when there is none. -/
def Obligations.FirstHitIsTheLeastPair : Prop :=
  ∀ (c : Config) (mem : Nat → Record) (start cap : Nat),
    (∀ i j, firstHit c mem start cap = some (i, j) ↔
      candidate c mem start cap i j ∧
        ∀ i' j', candidate c mem start cap i' j' → i < i' ∨ (i = i' ∧ j ≤ j')) ∧
    (firstHit c mem start cap = none ↔ ∀ i j, ¬ candidate c mem start cap i j)

/-! SCAN: the command. -/

/-- R111: with sprite memory stable, every SCAN whose start is below the capacity completes. It completes
with 0x10 and RESULT = (i << 8) | j exactly when FirstHit is (i, j), and with 0x00 exactly when FirstHit
is none, RESULT then unchanged. It writes no byte of storage, and only the fields onlyScanWrites names. -/
def Obligations.ScanReportsFirstHit : Prop :=
  ∀ (s : State) (mem : Nat → Record) (n : Nat), s.phase = .idle → s.overlap = Overlap.quiet →
    n < s.cap.toNat → memAgrees s mem n s.cap.toNat →
    ∃ t, exec (.scan n) s = .next t ∧
      (∀ i j : BitVec 8, (t.status = 0x10 ∧ t.result = encodePair i j) ↔
        firstHit s.cfg mem n s.cap.toNat = some (i.toNat, j.toNat)) ∧
      (t.status = 0x00 ↔ firstHit s.cfg mem n s.cap.toNat = none) ∧
      (t.status = 0x00 → t.result = s.result) ∧
      onlyScanWrites s t ∧ ∀ a, Memory.read t.storage a = Memory.read s.storage a

/-- R107: with no candidate pair a SCAN answers OK, and RESULT keeps the value it held. -/
def Obligations.ScanWithoutAPairIsOk : Prop :=
  ∀ (s : State) (mem : Nat → Record) (n : Nat), s.phase = .idle → s.overlap = Overlap.quiet →
    n < s.cap.toNat → memAgrees s mem n s.cap.toNat →
    (∀ i j, ¬ candidate s.cfg mem n s.cap.toNat i j) →
    ∃ t, exec (.scan n) s = .next t ∧ t.status = 0x00 ∧ t.result = s.result ∧ onlyScanWrites s t

/-- R108: after a hit RESULT[15:8] is i and RESULT[7:0] is j with start ≤ i < j ≤ CAP-1, i at most 253 and
j at least 1, and it is neither 0x00FF nor 0xFFFF. From every state, whatever overlaps the command. -/
def Obligations.HitNamesALegalPair : Prop :=
  ∀ (s t : State) (n : Nat), exec (.scan n) s = .next t → t.status = 0x10 →
    ∃ i j : BitVec 8, t.result = encodePair i j ∧ resultI t.result = i ∧ resultJ t.result = j ∧
      t.result.toNat = i.toNat * 256 + j.toNat ∧
      n ≤ i.toNat ∧ i.toNat < j.toNat ∧ j.toNat < s.cap.toNat ∧ i.toNat ≤ 253 ∧ 1 ≤ j.toNat ∧
      j.toNat ≤ 254 ∧ t.result ≠ 0x00FF ∧ t.result ≠ 0xFFFF

/-- "A SCAN in which at most one index in [s, cap) is collidable returns 0x00" (R112). -/
def Obligations.ScanOfOneCollidableIsOk : Prop :=
  ∀ (s : State) (mem : Nat → Record) (n k : Nat), s.phase = .idle → s.overlap = Overlap.quiet →
    n < s.cap.toNat → memAgrees s mem n s.cap.toNat →
    (∀ k', n ≤ k' → k' < s.cap.toNat → collidable s.cfg (mem k') = true → k' = k) →
    ∃ t, exec (.scan n) s = .next t ∧ t.status = 0x00 ∧ t.result = s.result

/-- R106: on a hit (i, j) the scan writes RESULT and answers at once: it has issued the reads of the rows
before i, one of record i and one of each record from i+1 to j, and no other. With no hit it issues the
reads of every row. The counts are those of R110's read order (assumption 8). -/
def Obligations.ScanStopsAtTheFirstHit : Prop :=
  ∀ (s : State) (mem : Nat → Record) (n : Nat), s.phase = .idle → s.overlap = Overlap.quiet →
    n < s.cap.toNat → memAgrees s mem n s.cap.toNat →
    ∃ t, exec (.scan n) s = .next t ∧
      (∀ i j, firstHit s.cfg mem n s.cap.toNat = some (i, j) →
        t.status = 0x10 ∧ t.result = encodePair (BitVec.ofNat 8 i) (BitVec.ofNat 8 j) ∧
        t.reads = s.reads + rowsReads s.cfg mem s.cap.toNat n i + 1 + (j - i)) ∧
      (firstHit s.cfg mem n s.cap.toNat = none →
        t.status = 0x00 ∧ t.reads = s.reads + rowsReads s.cfg mem s.cap.toNat n (s.cap.toNat - 1))

/-- A hit in the first row needs no record past it to be written: none is read (R106, R154). Both the count
of reads and which records must be written rest on R110's read order (assumption 8) and on the model's
tracking of written records (assumption 3). -/
def Obligations.RecordsPastTheHitAreNotNeeded : Prop :=
  ∀ (s : State) (mem : Nat → Record) (n j : Nat), s.overlap = Overlap.quiet →
    n < j → j < s.cap.toNat → memAgrees s mem n (j + 1) →
    collidable s.cfg (mem n) = true → collidable s.cfg (mem j) = true →
    overlaps s.cfg (mem n) (mem j) = true →
    (∀ k, n < k → k < j → (collidable s.cfg (mem k) && overlaps s.cfg (mem n) (mem k)) = false) →
    ∃ t, exec (.scan n) s = .next t ∧ t.status = 0x10 ∧
      t.result = encodePair (BitVec.ofNat 8 n) (BitVec.ofNat 8 j) ∧ t.reads = s.reads + 1 + (j - n)

/-- The read bound of R115: at most (cap - s) - 1 + (cap - s)(cap - s - 1)/2 reads, from every state,
whatever overlaps the command. The reads counted are those of R110's read order (assumption 8). -/
def Obligations.ScanReadsAreBounded : Prop :=
  ∀ (s t : State) (n : Nat), n < s.cap.toNat → exec (.scan n) s = .next t →
    t.reads ≤ s.reads + ((s.cap.toNat - n) - 1 + (s.cap.toNat - n) * (s.cap.toNat - n - 1) / 2)

/-- A SCAN completes even while other agents write sprite memory (R67), where the port answers, no reset
comes and the records it may read were written before: it answers 0x10 or 0x00, and the writes are in
storage after it (R115, R161). -/
def Obligations.ScanCompletesUnderOverlappingWrites : Prop :=
  ∀ (s : State) (n : Nat), s.phase = .idle → s.overlap.disturbance = .none → n < s.cap.toNat →
    recordsWritten s n s.cap.toNat →
    ∃ t, exec (.scan n) s = .next t ∧ t.phase = .idle ∧ t.overlap = Overlap.quiet ∧
      (t.status = 0x10 ∨ (t.status = 0x00 ∧ t.result = s.result)) ∧ t.cap = s.cap ∧
      t.storage = writeRecords s.cfg s.overlap.writes s.storage

/-- R113: the result depends only on the fields the scan reads of the records from the start up to the
capacity, on start and capacity, and on the four variant parameters. -/
def Obligations.ScanDependsOnlyOnWhatItReads : Prop :=
  ∀ (s₁ s₂ : State) (mem₁ mem₂ : Nat → Record) (n : Nat),
    s₁.phase = .idle → s₂.phase = .idle → s₁.overlap = Overlap.quiet → s₂.overlap = Overlap.quiet →
    s₁.cap = s₂.cap → n < s₁.cap.toNat →
    s₁.cfg.extentBias = s₂.cfg.extentBias → s₁.cfg.touch = s₂.cfg.touch →
    s₁.cfg.extentWrap = s₂.cfg.extentWrap → s₁.cfg.requireAlive = s₂.cfg.requireAlive →
    memAgrees s₁ mem₁ n s₁.cap.toNat → memAgrees s₂ mem₂ n s₂.cap.toNat →
    (∀ k, n ≤ k → k < s₁.cap.toNat → sameForScan s₁.cfg (mem₁ k) (mem₂ k)) →
    ∃ t₁ t₂, exec (.scan n) s₁ = .next t₁ ∧ exec (.scan n) s₂ = .next t₂ ∧ t₁.status = t₂.status ∧
      (t₁.status = 0x10 → t₁.result = t₂.result) ∧
      (t₁.status = 0x00 → t₁.result = s₁.result ∧ t₂.result = s₂.result)

/-- R31: a change to a record's velocity and animation bytes changes the result of no command, in every
layout that keeps records whole. -/
def Obligations.VelocityAndAnimationNeverMatter : Prop :=
  ∀ (i : Instr) (s : State) (k : Nat) (r r' : Record), s.phase = .idle → s.overlap = Overlap.quiet →
    s.cfg.layout.ok = true → recordsWritten s 0 s.cap.toNat → recordAt s k = some r →
    recX r' = recX r → recY r' = recY r → recFlags r' = recFlags r →
    ∃ t t', exec i s = .next t ∧
      exec i (s.setStorage (writeRecord s.storage s.cfg k r')) = .next t' ∧
      t'.status = t.status ∧ t'.result = t.result ∧ t'.cap = t.cap

/-- Under (a) to (d) of R61 a command's answer is a function of the registers, the parameters and sprite
memory at the moment CMD was written: nothing else in the state bears on it, the free values included. -/
def Obligations.AnswerIsAFunctionOfRegistersAndMemory : Prop :=
  ∀ (i : Instr) (s₁ s₂ : State), s₁.phase = .idle → s₂.phase = .idle →
    s₁.overlap = Overlap.quiet → s₂.overlap = Overlap.quiet →
    s₁.status = s₂.status → s₁.result = s₂.result → s₁.cap = s₂.cap → s₁.cfg = s₂.cfg →
    s₁.storage = s₂.storage → sameAnswer (exec i s₁) (exec i s₂)

/-- U12: where the port presents the same words for the records below CAP, no command can tell one storage
layout from another: the replies are the same. Nothing else about storage, its layout or SPR_BASE bears on
them; nor do REG_BASE and tearing. -/
def Obligations.LayoutNeverMattersToCommands : Prop :=
  ∀ (i : Instr) (s₁ s₂ : State), s₁.phase = .idle → s₂.phase = .idle →
    s₁.overlap = Overlap.quiet → s₂.overlap = Overlap.quiet →
    s₁.status = s₂.status → s₁.result = s₂.result → s₁.cap = s₂.cap →
    s₁.cfg.extentBias = s₂.cfg.extentBias → s₁.cfg.touch = s₂.cfg.touch →
    s₁.cfg.extentWrap = s₂.cfg.extentWrap → s₁.cfg.requireAlive = s₂.cfg.requireAlive →
    (∀ k, k < s₁.cap.toNat → recordAt s₁ k = recordAt s₂ k) → sameReply (exec i s₁) (exec i s₂)

/-- Re-invoking with start = i + 1 reports no pair whose lower index is i or below (R114). -/
def Obligations.ReinvocationMissesPairs : Prop :=
  ∀ (s t : State) (i : Nat), exec (.scan (i + 1)) s = .next t → t.status = 0x10 →
    ∀ a b : BitVec 8, a.toNat ≤ i → t.result ≠ encodePair a b

/-- "RESULT is written only by a SCAN that completes with COLLISION_DETECTED" (R25): a command that leaves
another status leaves RESULT, unless reset arrives. -/
def Obligations.ResultWrittenOnlyOnAHit : Prop :=
  ∀ (i : Instr) (s t : State), (∀ n, s.overlap.disturbance ≠ .resetAfter n) → exec i s = .next t →
    t.result ≠ s.result → t.status = 0x10 ∧ ∃ n, i = .scan n

/-! The sequencer. -/

/-- R21: from the start of a scan on, every micro-step keeps CUR_I at most CAP-2 and CUR_J at most CAP-1,
so both are at most 254 and neither wraps. -/
def Obligations.CursorStaysInBounds : Prop :=
  (∀ (s : State) (n : Nat), n + 1 < s.cap.toNat → SeqInv (s.enterScan (BitVec.ofNat 8 n))) ∧
  (∀ s t : State, s.phase = .scanning → SeqInv s → seqStep s = .next t → SeqInv t) ∧
  ∀ s : State, s.phase = .scanning → SeqInv s → s.curI.toNat + 2 ≤ s.cap.toNat ∧ s.curI.toNat ≤ 253 ∧
    (s.label = .inner → s.curJ.toNat + 1 ≤ s.cap.toNat ∧ s.curJ.toNat ≤ 254)

/-- No command ever reads an index at or above CAP (R51), and none is refused: a command stops only where
it reads a record not written before it (R154), or where the port falls silent (R161). That unwritten
records are tracked is the model's choice (assumption 3); which of them is met first, and how many reads a
silent port answers, rest on R110's read order (assumption 8), but the statement names neither. -/
def Obligations.CommandsStopOnlyAtTheirReads : Prop :=
  ∀ (i : Instr) (s : State),
    (∀ r, exec i s ≠ .refused r) ∧
    ∀ f, exec i s = .fault f →
      (∃ k, f = .unwrittenRecord k ∧ k < s.cap ∧ recordAt s k.toNat = none) ∨
      (f = .spritePortSilent ∧ ∃ n, s.overlap.disturbance = .portSilentAfter n)

/-- `SprRead(k)` below CAP returns the record held at index k and changes no register and no storage
(R51). -/
def Obligations.SprReadReturnsTheRecord : Prop :=
  ∀ (s : State) (k : BitVec 8) (r : Record), s.overlap = Overlap.quiet → k < s.cap →
    recordAt s k.toNat = some r →
    sprRead s k = .ok (r, { s with reads := s.reads + 1, fresh := s.fresh + 1 })

/-- A `SprRead` of a record nothing has written faults and supplies no value (R154): a scan stops at the
first record it reads, if that one is unwritten. That unwritten records are tracked, and so fault, is the
model's choice of R154's two treatments (assumption 3); that record n is the first one read is R110's read
order, which an implementation may change (assumption 8). -/
def Obligations.UnwrittenRecordFaults : Prop :=
  ∀ (s : State) (n : Nat), s.overlap = Overlap.quiet → n + 1 < s.cap.toNat → recordAt s n = none →
    exec (.scan n) s = .fault (.unwrittenRecord (BitVec.ofNat 8 n))

/-- A port that never answers hangs the command (R161), which the model shows as a fault of its own, its
stuck state (assumption 12). That a scan with a pair to examine issues a read is R110's order
(assumption 8). -/
def Obligations.SilentPortHangsTheScan : Prop :=
  ∀ (s : State) (n : Nat), s.overlap.disturbance = .portSilentAfter 0 → n + 1 < s.cap.toNat →
    exec (.scan n) s = .fault .spritePortSilent

/-- R67: while writes overlap a command, a read returns one of the values the record held during it, or,
where the platform's storage tears, each field of one; which one is free. -/
def Obligations.OverlappedReadIsADraw : Prop :=
  ∀ (s t : State) (k : BitVec 8) (r : Record), sprRead s k = .ok (r, t) →
    (s.cfg.tearing = false → some r ∈ heldValues s k.toNat) ∧
    (s.cfg.tearing = true →
      (∃ v, some v ∈ heldValues s k.toNat ∧ recX r = recX v) ∧
      (∃ v, some v ∈ heldValues s k.toNat ∧ recY r = recY v) ∧
      (∃ v, some v ∈ heldValues s k.toNat ∧ recVel r = recVel v) ∧
      (∃ v, some v ∈ heldValues s k.toNat ∧ recFlags r = recFlags v) ∧
      ∃ v, some v ∈ heldValues s k.toNat ∧ recAnim r = recAnim v)

/-! Frames. -/

/-- What no command changes: the parameters, the host's coming actions and what its last read got back.
Sprite storage holds what it held, with the writes of other agents that overlapped the command (R109,
R63); with none, every byte is unchanged. -/
def Obligations.CommandsLeaveMemoryAndHost : Prop :=
  ∀ (i : Instr) (s t : State), exec i s = .next t →
    t.cfg = s.cfg ∧ t.host = s.host ∧ t.rdata = s.rdata ∧ t.overlap = Overlap.quiet ∧
    t.storage = writeRecords s.cfg s.overlap.writes s.storage ∧
    (s.overlap.writes = [] → ∀ a, Memory.read t.storage a = Memory.read s.storage a)

/-! Reset. -/

/-- The reset values the spec gives (R33), and the default parameters (R7). -/
def Obligations.ResetValues : Prop :=
  State.reset.status = 0x00 ∧ State.reset.result = 0x0000 ∧ State.reset.cap = 0 ∧
    State.reset.phase = .idle ∧ State.reset.cfg.extentBias = .one ∧ State.reset.cfg.touch = .exclusive ∧
    State.reset.cfg.extentWrap = .wide ∧ State.reset.cfg.requireAlive = false

/-- R150: reset sets every register to its reset value and leaves the block IDLE, so that it accepts a
command at once; it touches neither sprite storage nor the parameters. What the cursor and latch hold after
it is left open, and so is the model's counter of free values. -/
def Obligations.ResetSetsTheRegisters : Prop :=
  ∀ (s : State) (rest : List HostAction), s.phase = .idle → s.host = .reset :: rest →
    ∃ t, step s = .next t ∧ t = { s with
      status := 0x00, result := 0x0000, cap := 0, phase := .idle, host := rest,
      curI := t.curI, curJ := t.curJ, aLat := t.aLat, fresh := t.fresh }

/-- R151: a reset that arrives during a command abandons it: the registers hold their reset values and no
answer, storage holds nothing of the command's, and the held write completes. -/
def Obligations.ResetAbandonsTheCommand : Prop :=
  ∀ (i : Instr) (s : State) (n : Nat), s.overlap.disturbance = .resetAfter n →
    (∀ t, exec i s = .next t →
      t.status = 0x00 ∧ t.result = 0x0000 ∧ t.cap = 0 ∧ t.phase = .idle ∧ t.cfg = s.cfg ∧
      t.host = s.host ∧ t.storage = writeRecords s.cfg s.overlap.writes s.storage) ∧
    (recordsWritten s 0 s.cap.toNat → ∃ t, exec i s = .next t)

/-! The register port and the host. -/

/-- R55: what a read of each register returns, with no side effect on any register, and that a write to
STATUS, RESULT or CAPACITY does nothing and one to CMD issues the word as a command. -/
def Obligations.RegisterMap : Prop :=
  ∀ (s : State) (rest : List HostAction) (v : Word) (o : Overlap), s.phase = .idle →
    (s.host = .read (s.cfg.regBase + 0x0) 4 :: rest →
      step s = .next { s with host := rest, rdata := 0 }) ∧
    (s.host = .read (s.cfg.regBase + 0x4) 4 :: rest →
      step s = .next { s with host := rest, rdata := s.status.setWidth 32 }) ∧
    (s.host = .read (s.cfg.regBase + 0x8) 4 :: rest →
      step s = .next { s with host := rest, rdata := s.result.setWidth 32 }) ∧
    (s.host = .read (s.cfg.regBase + 0xC) 4 :: rest →
      step s = .next { s with host := rest, rdata := s.cap.setWidth 32 }) ∧
    (s.host = .write (s.cfg.regBase + 0x4) 4 v o :: rest → step s = .next { s with host := rest }) ∧
    (s.host = .write (s.cfg.regBase + 0x8) 4 v o :: rest → step s = .next { s with host := rest }) ∧
    (s.host = .write (s.cfg.regBase + 0xC) 4 v o :: rest → step s = .next { s with host := rest }) ∧
    (s.host = .write (s.cfg.regBase + 0x0) 4 v o :: rest →
      step s = issueCommand v { s with host := rest, overlap := o })

/-- R56: an access inside the window of another width than 4, or at an offset that is no multiple of 4, is
refused. -/
def Obligations.OtherAccessesAreRefused : Prop :=
  ∀ (s : State) (rest : List HostAction) (addr width : Nat) (v : Word) (o : Overlap), s.phase = .idle →
    inWindow s.cfg addr → (width ≠ 4 ∨ (addr - s.cfg.regBase) % 4 ≠ 0) →
    (s.host = .read addr width :: rest → step s = .refused .registerAccessUndefined) ∧
    (s.host = .write addr width v o :: rest → step s = .refused .registerAccessUndefined)

/-- An access outside `[REG_BASE, REG_BASE + 0x10)` is not the block's (R59). -/
def Obligations.AccessesOutsideTheWindowAreRefused : Prop :=
  ∀ (s : State) (rest : List HostAction) (addr width : Nat) (v : Word) (o : Overlap), s.phase = .idle →
    (addr < s.cfg.regBase ∨ s.cfg.regBase + 0x10 ≤ addr) →
    (s.host = .read addr width :: rest → step s = .refused .outsideWindow) ∧
    (s.host = .write addr width v o :: rest → step s = .refused .outsideWindow)

/-- Every command and every defined access is allowed (R138): a step is refused only for an access that is
not defined. -/
def Obligations.OnlyUndefinedAccessesAreRefused : Prop :=
  ∀ (s : State) (q : Refusal), step s = .refused q →
    ∃ a rest, s.host = a :: rest ∧ ∃ addr width, ¬ definedAccess s.cfg addr width ∧
      (a = .read addr width ∨ ∃ v o, a = .write addr width v o)

/-- A step runs the decoded command: when the host's next action writes a word to CMD that decodes, the
step is exec of that command at the state with the action taken off the host's list and what overlaps the
command noted; and withFetchWord places such an action. -/
def Obligations.StepRunsTheDecodedCommand : Prop :=
  ∀ (s : State) (w : Word) (i : Instr), decode w = .ok i →
    (∀ (o : Overlap) (rest : List HostAction), s.phase = .idle →
      s.host = .write s.cfg.regBase 4 w o :: rest →
      step s = exec i { s with host := rest, overlap := o }) ∧
    step (s.withFetchWord 32 w.toNat) = exec i { s with phase := .idle, overlap := Overlap.quiet }

/-- While a command is in progress the host is held: the step that ends the command takes none of the
host's actions, changes nothing the host has read, and leaves the block IDLE (R58, R61 (a)). -/
def Obligations.HostIsHeldDuringACommand : Prop :=
  ∀ s t : State, s.phase = .scanning → step s = .next t →
    t.host = s.host ∧ t.rdata = s.rdata ∧ t.phase = .idle

/-- R143: between commands the block is IDLE and holds its registers; only a command and reset change
them. -/
def Obligations.IdleBlockHoldsItsRegisters : Prop :=
  ∀ s : State, s.phase = .idle → ¬ commandOrReset s →
    (s.host = [] → step s = .next s) ∧
    ∀ t, step s = .next t →
      t.status = s.status ∧ t.result = s.result ∧ t.cap = s.cap ∧ t.phase = .idle ∧ t.reads = s.reads

/-- A record the host writes between commands is what the next command's `SprRead` observes (R61 (b), R66);
every other record, every register and every byte that is no place of the record are unchanged. In every
layout that keeps records whole, as Inv says of the platform's. -/
def Obligations.HostSpriteWriteIsSeen : Prop :=
  ∀ (s : State) (k : SpriteIndex) (r : Record) (rest : List HostAction), s.phase = .idle →
    s.cfg.layout.ok = true → s.host = .spriteWrite k r :: rest →
    ∃ t, step s = .next t ∧ t = { s with host := rest, storage := t.storage } ∧
      recordAt t k.val = some r ∧ (∀ k', k' ≠ k.val → recordAt t k' = recordAt s k') ∧
      ∀ a, (∀ b < 5, recAddr s.cfg k.val b ≠ some a) →
        Memory.read t.storage a = Memory.read s.storage a

/-- R53: in its layout a record occupies the five bytes from SPR_BASE + 5k on: x, y, velocity, flags,
animation. Under any layout that keeps records whole, the five fields stand each at its place, and the port
presents the record as R52's word (U12). -/
def Obligations.RecordBytesInStorage : Prop :=
  (∀ (m : Memory) (c : Config) (k : Nat) (r : Record), c.layout = .packed →
    Memory.read (writeRecord m c k r) (c.sprBase + 5 * k) = some (recX r) ∧
    Memory.read (writeRecord m c k r) (c.sprBase + 5 * k + 1) = some (recY r) ∧
    Memory.read (writeRecord m c k r) (c.sprBase + 5 * k + 2) = some (recVel r) ∧
    Memory.read (writeRecord m c k r) (c.sprBase + 5 * k + 3) = some (recFlags r) ∧
    Memory.read (writeRecord m c k r) (c.sprBase + 5 * k + 4) = some (recAnim r)) ∧
  ∀ (m : Memory) (c : Config) (k : SpriteIndex) (r : Record), c.layout.ok = true →
    readRecord (writeRecord m c k r) c k = some r ∧
    ∃ a₀ a₁ a₂ a₃ a₄ : Nat,
      recAddr c k 0 = some a₀ ∧ recAddr c k 1 = some a₁ ∧ recAddr c k 2 = some a₂ ∧
      recAddr c k 3 = some a₃ ∧ recAddr c k 4 = some a₄ ∧
      Memory.read (writeRecord m c k r) a₀ = some (recX r) ∧
      Memory.read (writeRecord m c k r) a₁ = some (recY r) ∧
      Memory.read (writeRecord m c k r) a₂ = some (recVel r) ∧
      Memory.read (writeRecord m c k r) a₃ = some (recFlags r) ∧
      Memory.read (writeRecord m c k r) a₄ = some (recAnim r)

/-- Storage in canonical form is determined by what its addresses read as: equal memories are equal data.
The form is the model's choice (assumption 3). -/
def Obligations.StorageFormIsUnique : Prop :=
  ∀ m m' : Memory, m.wf → m'.wf → (∀ a, m.read a = m'.read a) → m = m'

/-- A byte-addressed view of a register is little-endian (R57). -/
def Obligations.RegisterBytesAreLittleEndian : Prop :=
  ∀ (s : State) (reg : PortReg),
    regValue s reg = regByte s reg 3 ++ regByte s reg 2 ++ regByte s reg 1 ++ regByte s reg 0

/-! Invariants and progress. -/

/-- Every step keeps the invariant: the block stands IDLE between commands, STATUS.CODE is a value the
block writes, RESULT names no pair or a legal one, storage keeps its canonical form. -/
def Obligations.StepKeepsInv : Prop :=
  ∀ s t : State, Inv s → step s = .next t → Inv t

/-- The invariant holds at reset. -/
def Obligations.ResetHasInv : Prop := Inv State.reset

/-- R133: STATUS.CODE is one of 0x00, 0x01, 0x03, 0x10 and 0x40, and stays so over every step; so neither
DOWNSTREAM_ERROR nor UNKNOWN_ERROR nor the bits 0x04 and 0x08 ever appear. -/
def Obligations.StatusStaysAWrittenCode : Prop :=
  ∀ s t : State, legalCode s.status → step s = .next t →
    legalCode t.status ∧ t.status &&& 0xAC = 0

/-- Where the invariant holds and the host keeps its duties for its next action, the step goes on: no
fault and no refusal (R66, R154, R161). -/
def Obligations.DutifulHostIsAlwaysAnswered : Prop :=
  ∀ s : State, Inv s → hostDuties s → goesOn (step s)
end

