-- ==== Sys2Proof/Laws/Codec.lean ====
section
/-! SUPPORT. The fields of a packed word read back (R71). -/

namespace Sys2Proof

/-- Which field each bit of a packed word comes from (R71). -/
theorem getLsbD_packWord (op : BitVec 4) (o : BitVec 1) (n i : Nat) :
    (packWord op o n).getLsbD i =
      if i < 16 then (BitVec.ofNat 16 n).getLsbD i
      else if i - 16 < 11 then false
      else if i - 16 - 11 < 1 then o.getLsbD (i - 16 - 11)
      else op.getLsbD (i - 16 - 11 - 1) := by
  unfold packWord
  refine (BitVec.getLsbD_append (x := op ++ o ++ 0#11) (y := BitVec.ofNat 16 n)).trans ?_
  simp only [BitVec.getLsbD_append, BitVec.getLsbD_zero]

@[simp] theorem opField_packWord (op : BitVec 4) (o : BitVec 1) (n : Nat) : opField (packWord op o n) = op := by
  apply BitVec.eq_of_getLsbD_eq
  intro i hi
  simp [opField, getLsbD_packWord, hi, show ¬ (28 + i < 16) by omega, show ¬ (28 + i - 16 < 11) by omega,
    show ¬ (28 + i - 16 - 11 < 1) by omega, show 28 + i - 16 - 11 - 1 = i by omega]

@[simp] theorem outvField_packWord (op : BitVec 4) (o : BitVec 1) (n : Nat) :
    outvField (packWord op o n) = o.getLsbD 0 := by
  unfold outvField
  rw [getLsbD_packWord]
  rfl

@[simp] theorem rsvField_packWord (op : BitVec 4) (o : BitVec 1) (n : Nat) :
    rsvField (packWord op o n) = 0#11 := by
  apply BitVec.eq_of_getLsbD_eq
  intro i hi
  simp [rsvField, getLsbD_packWord, hi, show ¬ (16 + i < 16) by omega]

@[simp] theorem opndField_packWord (op : BitVec 4) (o : BitVec 1) (n : Nat) :
    opndField (packWord op o n) = BitVec.ofNat 16 n := by
  apply BitVec.eq_of_getLsbD_eq
  intro i hi
  simp [opndField, getLsbD_packWord, hi]

end Sys2Proof
end

