-- ==== Sys2Proof/Laws/Memory.lean ====
section
/-! SUPPORT. The laws of sprite storage: a read after a write, what a write leaves alone, the canonical
form, and the same for whole records. -/

namespace Sys2Proof.Machine

@[simp] theorem Memory.read_write_same (m : Memory) (a : Nat) (b : Byte) :
    (Memory.write m a b).read a = some b := by
  induction m with
  | nil => simp [Memory.write, Memory.read]
  | cons p m ih =>
    obtain ⟨a', b'⟩ := p
    simp only [Memory.write]
    split
    · simp [Memory.read]
    · split
      · simp [Memory.read]
      · simp [Memory.read, *]

theorem Memory.read_write_other (m : Memory) {a a₂ : Nat} (b : Byte) (h : a₂ ≠ a) :
    (Memory.write m a b).read a₂ = Memory.read m a₂ := by
  induction m with
  | nil => simp [Memory.write, Memory.read, h]
  | cons p m ih =>
    obtain ⟨a', b'⟩ := p
    simp only [Memory.write]
    split
    · simp [Memory.read, h]
    · split
      · subst a'; simp [Memory.read, h]
      · simp [Memory.read, ih]

/-- Every address a write leaves listed is the written one or was listed. -/
theorem Memory.mem_write {m : Memory} {a : Nat} {b : Byte} {p : Host.Cell}
    (h : p ∈ Memory.write m a b) : p = (a, b) ∨ p ∈ m := by
  induction m with
  | nil => simpa [Memory.write] using h
  | cons q m ih =>
    obtain ⟨a', b'⟩ := q
    simp only [Memory.write] at h
    split at h
    · simpa using h
    · split at h
      · simp only [List.mem_cons] at h ⊢; tauto
      · simp only [List.mem_cons] at h ⊢
        rcases h with h | h
        · exact .inr (.inl h)
        · rcases ih h with h | h
          · exact .inl h
          · exact .inr (.inr h)

theorem Memory.write_wf {m : Memory} (h : Memory.wf m) (a : Nat) (b : Byte) :
    Memory.wf (Memory.write m a b) := by
  induction m with
  | nil => simp [Memory.write]
  | cons p m ih =>
    obtain ⟨a', b'⟩ := p
    obtain ⟨hp, hm⟩ := List.pairwise_cons.1 h
    simp only [Memory.write]
    split
    · rename_i hlt
      refine List.pairwise_cons.2 ⟨fun q hq => ?_, h⟩
      rcases List.mem_cons.1 hq with rfl | hq
      · exact hlt
      · exact Nat.lt_trans hlt (hp q hq)
    · split
      · subst a'
        exact List.pairwise_cons.2 ⟨hp, hm⟩
      · rename_i h1 h2
        refine List.pairwise_cons.2 ⟨fun q hq => ?_, ih hm⟩
        rcases Memory.mem_write hq with rfl | hq
        · show a' < a; omega
        · exact hp q hq

theorem Memory.read_none_of_lt {m : Memory} {a : Nat} (h : ∀ q ∈ m, a < q.1) : Memory.read m a = none := by
  induction m with
  | nil => rfl
  | cons p m ih =>
    obtain ⟨a', b'⟩ := p
    have h1 : a < a' := h (a', b') (by simp)
    simp only [Memory.read, if_neg (Nat.ne_of_lt h1)]
    exact ih fun q hq => h q (by simp [hq])

@[simp] theorem Memory.readPlace_some (m : Memory) (a : Nat) : m.readPlace (some a) = m.read a := rfl

@[simp] theorem Memory.readPlace_none (m : Memory) : m.readPlace none = none := rfl

@[simp] theorem Memory.writePlace_some (m : Memory) (a : Nat) (b : Byte) :
    m.writePlace (some a) b = m.write a b := rfl

@[simp] theorem Memory.writePlace_none (m : Memory) (b : Byte) : m.writePlace none b = m := rfl

theorem Memory.writePlace_wf {m : Memory} (h : Memory.wf m) (p : Option Nat) (b : Byte) :
    Memory.wf (m.writePlace p b) := by
  cases p with
  | none => exact h
  | some a => exact Memory.write_wf h a b

theorem Memory.read_writePlace_other (m : Memory) {p : Option Nat} {a : Nat} (b : Byte) (h : p ≠ some a) :
    (m.writePlace p b).read a = m.read a := by
  cases p with
  | none => rfl
  | some a' => exact Memory.read_write_other m b fun e => h (by rw [e])

/-! The places of a record (R53, U12). -/

@[simp] theorem recAddr_packed {c : Config} (h : c.layout = .packed) (k b : Nat) :
    recAddr c k b = some (c.sprBase + (5 * k + b)) := by
  simp [recAddr, recOffset, h]

/-- In a layout that keeps records whole, every byte of the 255 records has a place. -/
theorem recAddr_isSome {c : Config} (h : c.layout.ok = true) {k b : Nat} (hk : k < capMax) (hb : b < 5) :
    ∃ a, recAddr c k b = some a := by
  cases hl : c.layout with
  | packed => exact ⟨_, recAddr_packed hl k b⟩
  | table os =>
    simp only [hl, Layout.ok, Bool.and_eq_true, decide_eq_true_eq] at h
    have hi : 5 * k + b < os.length := by simp only [capMax] at *; omega
    exact ⟨c.sprBase + os[5 * k + b], by simp [recAddr, recOffset, hl, hi]⟩

/-- In a layout that keeps records whole, no two bytes of records share a place. -/
theorem recAddr_inj {c : Config} (h : c.layout.ok = true) {k k₂ b b₂ a : Nat} (hb : b < 5) (hb₂ : b₂ < 5)
    (h1 : recAddr c k b = some a) (h2 : recAddr c k₂ b₂ = some a) : k = k₂ ∧ b = b₂ := by
  suffices 5 * k + b = 5 * k₂ + b₂ by omega
  cases hl : c.layout with
  | packed =>
    rw [recAddr_packed hl, Option.some.injEq] at h1 h2
    omega
  | table os =>
    simp only [hl, Layout.ok, Bool.and_eq_true, decide_eq_true_eq] at h
    simp only [recAddr, recOffset, hl, Option.map_eq_some_iff] at h1 h2
    obtain ⟨o, ho, rfl⟩ := h1
    obtain ⟨o₂, ho₂, he⟩ := h2
    obtain rfl : o₂ = o := by omega
    obtain ⟨hi, -⟩ := List.getElem?_eq_some_iff.1 ho
    exact (List.getElem?_inj hi h.2).1 (ho.trans ho₂.symm)

/-! Whole records. -/

theorem writeRecord_wf {m : Memory} (h : Memory.wf m) (c : Config) (k : Nat) (r : Record) :
    Memory.wf (writeRecord m c k r) := by
  unfold writeRecord
  iterate 5 apply Memory.writePlace_wf
  exact h

theorem writeRecords_wf {m : Memory} (h : Memory.wf m) (c : Config) (ws : List (SpriteIndex × Record)) :
    Memory.wf (writeRecords c ws m) := by
  induction ws generalizing m with
  | nil => exact h
  | cons w ws ih => exact ih (writeRecord_wf h c w.1 w.2)

@[simp] theorem writeRecords_nil (c : Config) (m : Memory) : writeRecords c [] m = m := rfl

/-- A record write leaves every byte that is no place of the record alone. -/
theorem read_writeRecord_outside (m : Memory) (c : Config) (k : Nat) (r : Record) {a : Nat}
    (h : ∀ b < 5, recAddr c k b ≠ some a) : Memory.read (writeRecord m c k r) a = Memory.read m a := by
  unfold writeRecord
  rw [Memory.read_writePlace_other _ _ (h 4 (by omega)), Memory.read_writePlace_other _ _ (h 3 (by omega)),
    Memory.read_writePlace_other _ _ (h 2 (by omega)), Memory.read_writePlace_other _ _ (h 1 (by omega)),
    Memory.read_writePlace_other _ _ (h 0 (by omega))]

/-- Each byte of a written record reads back at its place (R53, U12). -/
theorem read_writeRecord_byte (m : Memory) {c : Config} (hc : c.layout.ok = true) {k b a : Nat} (r : Record)
    (hb : b < 5) (h : recAddr c k b = some a) :
    Memory.read (writeRecord m c k r) a = some (recByte r b) := by
  have other (b₂ : Nat) (hb₂ : b₂ < 5) (hne : b ≠ b₂) : recAddr c k b₂ ≠ some a :=
    fun h2 => hne (recAddr_inj hc hb hb₂ h h2).2
  unfold writeRecord
  rcases b with _ | _ | _ | _ | _ | b
  · rw [Memory.read_writePlace_other _ _ (other 4 (by omega) (by omega)),
      Memory.read_writePlace_other _ _ (other 3 (by omega) (by omega)),
      Memory.read_writePlace_other _ _ (other 2 (by omega) (by omega)),
      Memory.read_writePlace_other _ _ (other 1 (by omega) (by omega)), h, Memory.writePlace_some,
      Memory.read_write_same]
  · rw [Memory.read_writePlace_other _ _ (other 4 (by omega) (by omega)),
      Memory.read_writePlace_other _ _ (other 3 (by omega) (by omega)),
      Memory.read_writePlace_other _ _ (other 2 (by omega) (by omega)), h, Memory.writePlace_some,
      Memory.read_write_same]
  · rw [Memory.read_writePlace_other _ _ (other 4 (by omega) (by omega)),
      Memory.read_writePlace_other _ _ (other 3 (by omega) (by omega)), h, Memory.writePlace_some,
      Memory.read_write_same]
  · rw [Memory.read_writePlace_other _ _ (other 4 (by omega) (by omega)), h, Memory.writePlace_some,
      Memory.read_write_same]
  · rw [h, Memory.writePlace_some, Memory.read_write_same]
  · omega

/-- The five bytes of a record are its five fields and make it up again (R52, R53). -/
theorem packRecord_recByte (r : Record) :
    packRecord (recByte r 0) (recByte r 1) (recByte r 2) (recByte r 3) (recByte r 4) = r := by
  apply BitVec.eq_of_getLsbD_eq
  intro i hi
  simp only [packRecord, recByte, BitVec.getLsbD_append, BitVec.getLsbD_extractLsb']
  by_cases h1 : i < 8
  · simp [h1]
  · by_cases h2 : i < 16
    · simp [h1, show i - 8 < 8 by omega, show 8 + (i - 8) = i by omega]
    · by_cases h3 : i < 24
      · simp [h1, show ¬ (i - 8 < 8) by omega, show i - 8 - 8 < 8 by omega,
          show 16 + (i - 8 - 8) = i by omega]
      · by_cases h4 : i < 32
        · simp [h1, show ¬ (i - 8 < 8) by omega, show ¬ (i - 8 - 8 < 8) by omega,
            show i - 8 - 8 - 8 < 8 by omega, show 24 + (i - 8 - 8 - 8) = i by omega]
        · simp [h1, show ¬ (i - 8 < 8) by omega, show ¬ (i - 8 - 8 < 8) by omega,
            show ¬ (i - 8 - 8 - 8 < 8) by omega, show i - 8 - 8 - 8 - 8 < 8 by omega,
            show 32 + (i - 8 - 8 - 8 - 8) = i by omega]

/-- A written record reads back, in every layout that keeps records whole. -/
theorem readRecord_writeRecord_same (m : Memory) {c : Config} (hc : c.layout.ok = true) {k : Nat} (r : Record)
    (hk : ∀ b < 5, ∃ a, recAddr c k b = some a) : readRecord (writeRecord m c k r) c k = some r := by
  have byte (b : Nat) (hb : b < 5) :
      (writeRecord m c k r).readPlace (recAddr c k b) = some (recByte r b) := by
    obtain ⟨a, h⟩ := hk b hb
    rw [h, Memory.readPlace_some, read_writeRecord_byte m hc r hb h]
  simp only [readRecord, byte 0 (by omega), byte 1 (by omega), byte 2 (by omega), byte 3 (by omega),
    byte 4 (by omega), packRecord_recByte]

/-- A record that can be read has its five places. -/
theorem readRecord_places {m : Memory} {c : Config} {k : Nat} {r : Record} (h : readRecord m c k = some r) :
    ∀ b < 5, ∃ a, recAddr c k b = some a := by
  intro b hb
  by_contra hn
  have hp : recAddr c k b = none := by
    cases h' : recAddr c k b with
    | none => rfl
    | some a => exact absurd ⟨a, h'⟩ hn
  unfold readRecord at h
  rcases b with _ | _ | _ | _ | _ | b
  · simp [hp] at h
  · simp [hp] at h
  · simp [hp] at h
  · simp [hp] at h
  · simp [hp] at h
  · omega

theorem readRecord_writeRecord_other (m : Memory) {c : Config} (hc : c.layout.ok = true) {k k₂ : Nat}
    (r : Record) (h : k₂ ≠ k) : readRecord (writeRecord m c k r) c k₂ = readRecord m c k₂ := by
  have out (b : Nat) (hb : b < 5) :
      (writeRecord m c k r).readPlace (recAddr c k₂ b) = m.readPlace (recAddr c k₂ b) := by
    cases hp : recAddr c k₂ b with
    | none => rfl
    | some a =>
      exact read_writeRecord_outside m c k r fun b₂ hb₂ h2 => h (recAddr_inj hc hb hb₂ hp h2).1
  simp only [readRecord, out 0 (by omega), out 1 (by omega), out 2 (by omega), out 3 (by omega),
    out 4 (by omega)]

end Sys2Proof.Machine
end

