-- ==== Sys2Proof/Laws/State.lean ====
section
/-! SUPPORT. What each update of the state leaves in each field: one lemma per field per update, so that no
proof unfolds an update. -/

namespace Sys2Proof.Machine

variable (s : State)

@[simp] theorem raiseStatus_status (c : BitVec 8) : (s.raiseStatus c).status = c := rfl
@[simp] theorem raiseStatus_result (c : BitVec 8) : (s.raiseStatus c).result = s.result := rfl
@[simp] theorem raiseStatus_cap (c : BitVec 8) : (s.raiseStatus c).cap = s.cap := rfl
@[simp] theorem raiseStatus_phase (c : BitVec 8) : (s.raiseStatus c).phase = s.phase := rfl
@[simp] theorem raiseStatus_curI (c : BitVec 8) : (s.raiseStatus c).curI = s.curI := rfl
@[simp] theorem raiseStatus_curJ (c : BitVec 8) : (s.raiseStatus c).curJ = s.curJ := rfl
@[simp] theorem raiseStatus_aLat (c : BitVec 8) : (s.raiseStatus c).aLat = s.aLat := rfl
@[simp] theorem raiseStatus_label (c : BitVec 8) : (s.raiseStatus c).label = s.label := rfl
@[simp] theorem raiseStatus_storage (c : BitVec 8) : (s.raiseStatus c).storage = s.storage := rfl
@[simp] theorem raiseStatus_cfg (c : BitVec 8) : (s.raiseStatus c).cfg = s.cfg := rfl
@[simp] theorem raiseStatus_host (c : BitVec 8) : (s.raiseStatus c).host = s.host := rfl
@[simp] theorem raiseStatus_overlap (c : BitVec 8) : (s.raiseStatus c).overlap = s.overlap := rfl
@[simp] theorem raiseStatus_rdata (c : BitVec 8) : (s.raiseStatus c).rdata = s.rdata := rfl
@[simp] theorem raiseStatus_reads (c : BitVec 8) : (s.raiseStatus c).reads = s.reads := rfl
@[simp] theorem raiseStatus_fresh (c : BitVec 8) : (s.raiseStatus c).fresh = s.fresh := rfl

@[simp] theorem finish_status (c : BitVec 8) : (s.finish c).status = c := rfl
@[simp] theorem finish_result (c : BitVec 8) : (s.finish c).result = s.result := rfl
@[simp] theorem finish_cap (c : BitVec 8) : (s.finish c).cap = s.cap := rfl
@[simp] theorem finish_phase (c : BitVec 8) : (s.finish c).phase = s.phase := rfl
@[simp] theorem finish_curI (c : BitVec 8) : (s.finish c).curI = s.curI := rfl
@[simp] theorem finish_curJ (c : BitVec 8) : (s.finish c).curJ = s.curJ := rfl
@[simp] theorem finish_aLat (c : BitVec 8) : (s.finish c).aLat = s.aLat := rfl
@[simp] theorem finish_label (c : BitVec 8) : (s.finish c).label = s.label := rfl
@[simp] theorem finish_storage (c : BitVec 8) : (s.finish c).storage = s.storage := rfl
@[simp] theorem finish_cfg (c : BitVec 8) : (s.finish c).cfg = s.cfg := rfl
@[simp] theorem finish_host (c : BitVec 8) : (s.finish c).host = s.host := rfl
@[simp] theorem finish_overlap (c : BitVec 8) : (s.finish c).overlap = s.overlap := rfl
@[simp] theorem finish_rdata (c : BitVec 8) : (s.finish c).rdata = s.rdata := rfl
@[simp] theorem finish_reads (c : BitVec 8) : (s.finish c).reads = s.reads := rfl
@[simp] theorem finish_fresh (c : BitVec 8) : (s.finish c).fresh = s.fresh := rfl

@[simp] theorem setCap_status (v : BitVec 8) : (s.setCap v).status = s.status := rfl
@[simp] theorem setCap_result (v : BitVec 8) : (s.setCap v).result = s.result := rfl
@[simp] theorem setCap_cap (v : BitVec 8) : (s.setCap v).cap = v := rfl
@[simp] theorem setCap_phase (v : BitVec 8) : (s.setCap v).phase = s.phase := rfl
@[simp] theorem setCap_curI (v : BitVec 8) : (s.setCap v).curI = s.curI := rfl
@[simp] theorem setCap_curJ (v : BitVec 8) : (s.setCap v).curJ = s.curJ := rfl
@[simp] theorem setCap_aLat (v : BitVec 8) : (s.setCap v).aLat = s.aLat := rfl
@[simp] theorem setCap_label (v : BitVec 8) : (s.setCap v).label = s.label := rfl
@[simp] theorem setCap_storage (v : BitVec 8) : (s.setCap v).storage = s.storage := rfl
@[simp] theorem setCap_cfg (v : BitVec 8) : (s.setCap v).cfg = s.cfg := rfl
@[simp] theorem setCap_host (v : BitVec 8) : (s.setCap v).host = s.host := rfl
@[simp] theorem setCap_overlap (v : BitVec 8) : (s.setCap v).overlap = s.overlap := rfl
@[simp] theorem setCap_rdata (v : BitVec 8) : (s.setCap v).rdata = s.rdata := rfl
@[simp] theorem setCap_reads (v : BitVec 8) : (s.setCap v).reads = s.reads := rfl
@[simp] theorem setCap_fresh (v : BitVec 8) : (s.setCap v).fresh = s.fresh := rfl

@[simp] theorem setResult_status (v : BitVec 16) : (s.setResult v).status = s.status := rfl
@[simp] theorem setResult_result (v : BitVec 16) : (s.setResult v).result = v := rfl
@[simp] theorem setResult_cap (v : BitVec 16) : (s.setResult v).cap = s.cap := rfl
@[simp] theorem setResult_phase (v : BitVec 16) : (s.setResult v).phase = s.phase := rfl
@[simp] theorem setResult_curI (v : BitVec 16) : (s.setResult v).curI = s.curI := rfl
@[simp] theorem setResult_curJ (v : BitVec 16) : (s.setResult v).curJ = s.curJ := rfl
@[simp] theorem setResult_aLat (v : BitVec 16) : (s.setResult v).aLat = s.aLat := rfl
@[simp] theorem setResult_label (v : BitVec 16) : (s.setResult v).label = s.label := rfl
@[simp] theorem setResult_storage (v : BitVec 16) : (s.setResult v).storage = s.storage := rfl
@[simp] theorem setResult_cfg (v : BitVec 16) : (s.setResult v).cfg = s.cfg := rfl
@[simp] theorem setResult_host (v : BitVec 16) : (s.setResult v).host = s.host := rfl
@[simp] theorem setResult_overlap (v : BitVec 16) : (s.setResult v).overlap = s.overlap := rfl
@[simp] theorem setResult_rdata (v : BitVec 16) : (s.setResult v).rdata = s.rdata := rfl
@[simp] theorem setResult_reads (v : BitVec 16) : (s.setResult v).reads = s.reads := rfl
@[simp] theorem setResult_fresh (v : BitVec 16) : (s.setResult v).fresh = s.fresh := rfl

@[simp] theorem countRead_status : s.countRead.status = s.status := rfl
@[simp] theorem countRead_result : s.countRead.result = s.result := rfl
@[simp] theorem countRead_cap : s.countRead.cap = s.cap := rfl
@[simp] theorem countRead_phase : s.countRead.phase = s.phase := rfl
@[simp] theorem countRead_curI : s.countRead.curI = s.curI := rfl
@[simp] theorem countRead_curJ : s.countRead.curJ = s.curJ := rfl
@[simp] theorem countRead_aLat : s.countRead.aLat = s.aLat := rfl
@[simp] theorem countRead_label : s.countRead.label = s.label := rfl
@[simp] theorem countRead_storage : s.countRead.storage = s.storage := rfl
@[simp] theorem countRead_cfg : s.countRead.cfg = s.cfg := rfl
@[simp] theorem countRead_host : s.countRead.host = s.host := rfl
@[simp] theorem countRead_overlap : s.countRead.overlap = s.overlap.afterRead := rfl
@[simp] theorem countRead_rdata : s.countRead.rdata = s.rdata := rfl
@[simp] theorem countRead_reads : s.countRead.reads = s.reads + 1 := rfl
@[simp] theorem countRead_fresh : s.countRead.fresh = s.fresh + 1 := rfl

@[simp] theorem goIdle_status : s.goIdle.status = s.status := rfl
@[simp] theorem goIdle_result : s.goIdle.result = s.result := rfl
@[simp] theorem goIdle_cap : s.goIdle.cap = s.cap := rfl
@[simp] theorem goIdle_phase : s.goIdle.phase = .idle := rfl
@[simp] theorem goIdle_curI : s.goIdle.curI = Config.idleCurI s.fresh := rfl
@[simp] theorem goIdle_curJ : s.goIdle.curJ = Config.idleCurJ s.fresh := rfl
@[simp] theorem goIdle_aLat : s.goIdle.aLat = Config.idleALat s.fresh := rfl
@[simp] theorem goIdle_label : s.goIdle.label = s.label := rfl
@[simp] theorem goIdle_storage : s.goIdle.storage = s.storage := rfl
@[simp] theorem goIdle_cfg : s.goIdle.cfg = s.cfg := rfl
@[simp] theorem goIdle_host : s.goIdle.host = s.host := rfl
@[simp] theorem goIdle_overlap : s.goIdle.overlap = s.overlap := rfl
@[simp] theorem goIdle_rdata : s.goIdle.rdata = s.rdata := rfl
@[simp] theorem goIdle_reads : s.goIdle.reads = s.reads := rfl
@[simp] theorem goIdle_fresh : s.goIdle.fresh = s.fresh + 1 := rfl

@[simp] theorem resetBlock_status : s.resetBlock.status = 0 := rfl
@[simp] theorem resetBlock_result : s.resetBlock.result = 0 := rfl
@[simp] theorem resetBlock_cap : s.resetBlock.cap = 0 := rfl
@[simp] theorem resetBlock_phase : s.resetBlock.phase = .idle := rfl
@[simp] theorem resetBlock_curI : s.resetBlock.curI = Config.idleCurI s.fresh := rfl
@[simp] theorem resetBlock_curJ : s.resetBlock.curJ = Config.idleCurJ s.fresh := rfl
@[simp] theorem resetBlock_aLat : s.resetBlock.aLat = Config.idleALat s.fresh := rfl
@[simp] theorem resetBlock_label : s.resetBlock.label = s.label := rfl
@[simp] theorem resetBlock_storage : s.resetBlock.storage = s.storage := rfl
@[simp] theorem resetBlock_cfg : s.resetBlock.cfg = s.cfg := rfl
@[simp] theorem resetBlock_host : s.resetBlock.host = s.host := rfl
@[simp] theorem resetBlock_overlap : s.resetBlock.overlap = s.overlap := rfl
@[simp] theorem resetBlock_rdata : s.resetBlock.rdata = s.rdata := rfl
@[simp] theorem resetBlock_reads : s.resetBlock.reads = s.reads := rfl
@[simp] theorem resetBlock_fresh : s.resetBlock.fresh = s.fresh + 1 := rfl

@[simp] theorem settleWrites_status : s.settleWrites.status = s.status := rfl
@[simp] theorem settleWrites_result : s.settleWrites.result = s.result := rfl
@[simp] theorem settleWrites_cap : s.settleWrites.cap = s.cap := rfl
@[simp] theorem settleWrites_phase : s.settleWrites.phase = s.phase := rfl
@[simp] theorem settleWrites_curI : s.settleWrites.curI = s.curI := rfl
@[simp] theorem settleWrites_curJ : s.settleWrites.curJ = s.curJ := rfl
@[simp] theorem settleWrites_aLat : s.settleWrites.aLat = s.aLat := rfl
@[simp] theorem settleWrites_label : s.settleWrites.label = s.label := rfl
@[simp] theorem settleWrites_storage : s.settleWrites.storage = writeRecords s.cfg s.overlap.writes s.storage := rfl
@[simp] theorem settleWrites_cfg : s.settleWrites.cfg = s.cfg := rfl
@[simp] theorem settleWrites_host : s.settleWrites.host = s.host := rfl
@[simp] theorem settleWrites_overlap : s.settleWrites.overlap = Overlap.quiet := rfl
@[simp] theorem settleWrites_rdata : s.settleWrites.rdata = s.rdata := rfl
@[simp] theorem settleWrites_reads : s.settleWrites.reads = s.reads := rfl
@[simp] theorem settleWrites_fresh : s.settleWrites.fresh = s.fresh := rfl

@[simp] theorem enterScan_status (i : BitVec 8) : (s.enterScan i).status = s.status := rfl
@[simp] theorem enterScan_result (i : BitVec 8) : (s.enterScan i).result = s.result := rfl
@[simp] theorem enterScan_cap (i : BitVec 8) : (s.enterScan i).cap = s.cap := rfl
@[simp] theorem enterScan_phase (i : BitVec 8) : (s.enterScan i).phase = .scanning := rfl
@[simp] theorem enterScan_curI (i : BitVec 8) : (s.enterScan i).curI = i := rfl
@[simp] theorem enterScan_curJ (i : BitVec 8) : (s.enterScan i).curJ = s.curJ := rfl
@[simp] theorem enterScan_aLat (i : BitVec 8) : (s.enterScan i).aLat = s.aLat := rfl
@[simp] theorem enterScan_label (i : BitVec 8) : (s.enterScan i).label = .outer := rfl
@[simp] theorem enterScan_storage (i : BitVec 8) : (s.enterScan i).storage = s.storage := rfl
@[simp] theorem enterScan_cfg (i : BitVec 8) : (s.enterScan i).cfg = s.cfg := rfl
@[simp] theorem enterScan_host (i : BitVec 8) : (s.enterScan i).host = s.host := rfl
@[simp] theorem enterScan_overlap (i : BitVec 8) : (s.enterScan i).overlap = s.overlap := rfl
@[simp] theorem enterScan_rdata (i : BitVec 8) : (s.enterScan i).rdata = s.rdata := rfl
@[simp] theorem enterScan_reads (i : BitVec 8) : (s.enterScan i).reads = s.reads := rfl
@[simp] theorem enterScan_fresh (i : BitVec 8) : (s.enterScan i).fresh = s.fresh := rfl

@[simp] theorem enterInner_status (r : Record) : (s.enterInner r).status = s.status := rfl
@[simp] theorem enterInner_result (r : Record) : (s.enterInner r).result = s.result := rfl
@[simp] theorem enterInner_cap (r : Record) : (s.enterInner r).cap = s.cap := rfl
@[simp] theorem enterInner_phase (r : Record) : (s.enterInner r).phase = s.phase := rfl
@[simp] theorem enterInner_curI (r : Record) : (s.enterInner r).curI = s.curI := rfl
@[simp] theorem enterInner_curJ (r : Record) : (s.enterInner r).curJ = s.curI + 1 := rfl
@[simp] theorem enterInner_aLat (r : Record) : (s.enterInner r).aLat = r := rfl
@[simp] theorem enterInner_label (r : Record) : (s.enterInner r).label = .inner := rfl
@[simp] theorem enterInner_storage (r : Record) : (s.enterInner r).storage = s.storage := rfl
@[simp] theorem enterInner_cfg (r : Record) : (s.enterInner r).cfg = s.cfg := rfl
@[simp] theorem enterInner_host (r : Record) : (s.enterInner r).host = s.host := rfl
@[simp] theorem enterInner_overlap (r : Record) : (s.enterInner r).overlap = s.overlap := rfl
@[simp] theorem enterInner_rdata (r : Record) : (s.enterInner r).rdata = s.rdata := rfl
@[simp] theorem enterInner_reads (r : Record) : (s.enterInner r).reads = s.reads := rfl
@[simp] theorem enterInner_fresh (r : Record) : (s.enterInner r).fresh = s.fresh := rfl

@[simp] theorem skipRow_status (r : Record) : (s.skipRow r).status = s.status := rfl
@[simp] theorem skipRow_result (r : Record) : (s.skipRow r).result = s.result := rfl
@[simp] theorem skipRow_cap (r : Record) : (s.skipRow r).cap = s.cap := rfl
@[simp] theorem skipRow_phase (r : Record) : (s.skipRow r).phase = s.phase := rfl
@[simp] theorem skipRow_curI (r : Record) : (s.skipRow r).curI = s.curI := rfl
@[simp] theorem skipRow_curJ (r : Record) : (s.skipRow r).curJ = s.curJ := rfl
@[simp] theorem skipRow_aLat (r : Record) : (s.skipRow r).aLat = r := rfl
@[simp] theorem skipRow_label (r : Record) : (s.skipRow r).label = .nextI := rfl
@[simp] theorem skipRow_storage (r : Record) : (s.skipRow r).storage = s.storage := rfl
@[simp] theorem skipRow_cfg (r : Record) : (s.skipRow r).cfg = s.cfg := rfl
@[simp] theorem skipRow_host (r : Record) : (s.skipRow r).host = s.host := rfl
@[simp] theorem skipRow_overlap (r : Record) : (s.skipRow r).overlap = s.overlap := rfl
@[simp] theorem skipRow_rdata (r : Record) : (s.skipRow r).rdata = s.rdata := rfl
@[simp] theorem skipRow_reads (r : Record) : (s.skipRow r).reads = s.reads := rfl
@[simp] theorem skipRow_fresh (r : Record) : (s.skipRow r).fresh = s.fresh := rfl

@[simp] theorem nextJ_status : s.nextJ.status = s.status := rfl
@[simp] theorem nextJ_result : s.nextJ.result = s.result := rfl
@[simp] theorem nextJ_cap : s.nextJ.cap = s.cap := rfl
@[simp] theorem nextJ_phase : s.nextJ.phase = s.phase := rfl
@[simp] theorem nextJ_curI : s.nextJ.curI = s.curI := rfl
@[simp] theorem nextJ_curJ : s.nextJ.curJ = s.curJ + 1 := rfl
@[simp] theorem nextJ_aLat : s.nextJ.aLat = s.aLat := rfl
@[simp] theorem nextJ_label : s.nextJ.label = .inner := rfl
@[simp] theorem nextJ_storage : s.nextJ.storage = s.storage := rfl
@[simp] theorem nextJ_cfg : s.nextJ.cfg = s.cfg := rfl
@[simp] theorem nextJ_host : s.nextJ.host = s.host := rfl
@[simp] theorem nextJ_overlap : s.nextJ.overlap = s.overlap := rfl
@[simp] theorem nextJ_rdata : s.nextJ.rdata = s.rdata := rfl
@[simp] theorem nextJ_reads : s.nextJ.reads = s.reads := rfl
@[simp] theorem nextJ_fresh : s.nextJ.fresh = s.fresh := rfl

@[simp] theorem endRow_status : s.endRow.status = s.status := rfl
@[simp] theorem endRow_result : s.endRow.result = s.result := rfl
@[simp] theorem endRow_cap : s.endRow.cap = s.cap := rfl
@[simp] theorem endRow_phase : s.endRow.phase = s.phase := rfl
@[simp] theorem endRow_curI : s.endRow.curI = s.curI := rfl
@[simp] theorem endRow_curJ : s.endRow.curJ = s.curJ := rfl
@[simp] theorem endRow_aLat : s.endRow.aLat = s.aLat := rfl
@[simp] theorem endRow_label : s.endRow.label = .nextI := rfl
@[simp] theorem endRow_storage : s.endRow.storage = s.storage := rfl
@[simp] theorem endRow_cfg : s.endRow.cfg = s.cfg := rfl
@[simp] theorem endRow_host : s.endRow.host = s.host := rfl
@[simp] theorem endRow_overlap : s.endRow.overlap = s.overlap := rfl
@[simp] theorem endRow_rdata : s.endRow.rdata = s.rdata := rfl
@[simp] theorem endRow_reads : s.endRow.reads = s.reads := rfl
@[simp] theorem endRow_fresh : s.endRow.fresh = s.fresh := rfl

@[simp] theorem nextRow_status : s.nextRow.status = s.status := rfl
@[simp] theorem nextRow_result : s.nextRow.result = s.result := rfl
@[simp] theorem nextRow_cap : s.nextRow.cap = s.cap := rfl
@[simp] theorem nextRow_phase : s.nextRow.phase = s.phase := rfl
@[simp] theorem nextRow_curI : s.nextRow.curI = s.curI + 1 := rfl
@[simp] theorem nextRow_curJ : s.nextRow.curJ = s.curJ := rfl
@[simp] theorem nextRow_aLat : s.nextRow.aLat = s.aLat := rfl
@[simp] theorem nextRow_label : s.nextRow.label = .outer := rfl
@[simp] theorem nextRow_storage : s.nextRow.storage = s.storage := rfl
@[simp] theorem nextRow_cfg : s.nextRow.cfg = s.cfg := rfl
@[simp] theorem nextRow_host : s.nextRow.host = s.host := rfl
@[simp] theorem nextRow_overlap : s.nextRow.overlap = s.overlap := rfl
@[simp] theorem nextRow_rdata : s.nextRow.rdata = s.rdata := rfl
@[simp] theorem nextRow_reads : s.nextRow.reads = s.reads := rfl
@[simp] theorem nextRow_fresh : s.nextRow.fresh = s.fresh := rfl

@[simp] theorem setOverlap_status (o : Overlap) : (s.setOverlap o).status = s.status := rfl
@[simp] theorem setOverlap_result (o : Overlap) : (s.setOverlap o).result = s.result := rfl
@[simp] theorem setOverlap_cap (o : Overlap) : (s.setOverlap o).cap = s.cap := rfl
@[simp] theorem setOverlap_phase (o : Overlap) : (s.setOverlap o).phase = s.phase := rfl
@[simp] theorem setOverlap_curI (o : Overlap) : (s.setOverlap o).curI = s.curI := rfl
@[simp] theorem setOverlap_curJ (o : Overlap) : (s.setOverlap o).curJ = s.curJ := rfl
@[simp] theorem setOverlap_aLat (o : Overlap) : (s.setOverlap o).aLat = s.aLat := rfl
@[simp] theorem setOverlap_label (o : Overlap) : (s.setOverlap o).label = s.label := rfl
@[simp] theorem setOverlap_storage (o : Overlap) : (s.setOverlap o).storage = s.storage := rfl
@[simp] theorem setOverlap_cfg (o : Overlap) : (s.setOverlap o).cfg = s.cfg := rfl
@[simp] theorem setOverlap_host (o : Overlap) : (s.setOverlap o).host = s.host := rfl
@[simp] theorem setOverlap_overlap (o : Overlap) : (s.setOverlap o).overlap = o := rfl
@[simp] theorem setOverlap_rdata (o : Overlap) : (s.setOverlap o).rdata = s.rdata := rfl
@[simp] theorem setOverlap_reads (o : Overlap) : (s.setOverlap o).reads = s.reads := rfl
@[simp] theorem setOverlap_fresh (o : Overlap) : (s.setOverlap o).fresh = s.fresh := rfl

@[simp] theorem setRdata_status (v : Word) : (s.setRdata v).status = s.status := rfl
@[simp] theorem setRdata_result (v : Word) : (s.setRdata v).result = s.result := rfl
@[simp] theorem setRdata_cap (v : Word) : (s.setRdata v).cap = s.cap := rfl
@[simp] theorem setRdata_phase (v : Word) : (s.setRdata v).phase = s.phase := rfl
@[simp] theorem setRdata_curI (v : Word) : (s.setRdata v).curI = s.curI := rfl
@[simp] theorem setRdata_curJ (v : Word) : (s.setRdata v).curJ = s.curJ := rfl
@[simp] theorem setRdata_aLat (v : Word) : (s.setRdata v).aLat = s.aLat := rfl
@[simp] theorem setRdata_label (v : Word) : (s.setRdata v).label = s.label := rfl
@[simp] theorem setRdata_storage (v : Word) : (s.setRdata v).storage = s.storage := rfl
@[simp] theorem setRdata_cfg (v : Word) : (s.setRdata v).cfg = s.cfg := rfl
@[simp] theorem setRdata_host (v : Word) : (s.setRdata v).host = s.host := rfl
@[simp] theorem setRdata_overlap (v : Word) : (s.setRdata v).overlap = s.overlap := rfl
@[simp] theorem setRdata_rdata (v : Word) : (s.setRdata v).rdata = v := rfl
@[simp] theorem setRdata_reads (v : Word) : (s.setRdata v).reads = s.reads := rfl
@[simp] theorem setRdata_fresh (v : Word) : (s.setRdata v).fresh = s.fresh := rfl

@[simp] theorem setHost_status (h : List HostAction) : (s.setHost h).status = s.status := rfl
@[simp] theorem setHost_result (h : List HostAction) : (s.setHost h).result = s.result := rfl
@[simp] theorem setHost_cap (h : List HostAction) : (s.setHost h).cap = s.cap := rfl
@[simp] theorem setHost_phase (h : List HostAction) : (s.setHost h).phase = s.phase := rfl
@[simp] theorem setHost_curI (h : List HostAction) : (s.setHost h).curI = s.curI := rfl
@[simp] theorem setHost_curJ (h : List HostAction) : (s.setHost h).curJ = s.curJ := rfl
@[simp] theorem setHost_aLat (h : List HostAction) : (s.setHost h).aLat = s.aLat := rfl
@[simp] theorem setHost_label (h : List HostAction) : (s.setHost h).label = s.label := rfl
@[simp] theorem setHost_storage (h : List HostAction) : (s.setHost h).storage = s.storage := rfl
@[simp] theorem setHost_cfg (h : List HostAction) : (s.setHost h).cfg = s.cfg := rfl
@[simp] theorem setHost_host (h : List HostAction) : (s.setHost h).host = h := rfl
@[simp] theorem setHost_overlap (h : List HostAction) : (s.setHost h).overlap = s.overlap := rfl
@[simp] theorem setHost_rdata (h : List HostAction) : (s.setHost h).rdata = s.rdata := rfl
@[simp] theorem setHost_reads (h : List HostAction) : (s.setHost h).reads = s.reads := rfl
@[simp] theorem setHost_fresh (h : List HostAction) : (s.setHost h).fresh = s.fresh := rfl

@[simp] theorem setStorage_status (m : Memory) : (s.setStorage m).status = s.status := rfl
@[simp] theorem setStorage_result (m : Memory) : (s.setStorage m).result = s.result := rfl
@[simp] theorem setStorage_cap (m : Memory) : (s.setStorage m).cap = s.cap := rfl
@[simp] theorem setStorage_phase (m : Memory) : (s.setStorage m).phase = s.phase := rfl
@[simp] theorem setStorage_curI (m : Memory) : (s.setStorage m).curI = s.curI := rfl
@[simp] theorem setStorage_curJ (m : Memory) : (s.setStorage m).curJ = s.curJ := rfl
@[simp] theorem setStorage_aLat (m : Memory) : (s.setStorage m).aLat = s.aLat := rfl
@[simp] theorem setStorage_label (m : Memory) : (s.setStorage m).label = s.label := rfl
@[simp] theorem setStorage_storage (m : Memory) : (s.setStorage m).storage = m := rfl
@[simp] theorem setStorage_cfg (m : Memory) : (s.setStorage m).cfg = s.cfg := rfl
@[simp] theorem setStorage_host (m : Memory) : (s.setStorage m).host = s.host := rfl
@[simp] theorem setStorage_overlap (m : Memory) : (s.setStorage m).overlap = s.overlap := rfl
@[simp] theorem setStorage_rdata (m : Memory) : (s.setStorage m).rdata = s.rdata := rfl
@[simp] theorem setStorage_reads (m : Memory) : (s.setStorage m).reads = s.reads := rfl
@[simp] theorem setStorage_fresh (m : Memory) : (s.setStorage m).fresh = s.fresh := rfl

end Sys2Proof.Machine
end

