-- ==== Sys2Proof/Laws/Port.lean ====
section
/-! SUPPORT. What one read of the sprite read port can do, and which register a host access reaches. -/

namespace Sys2Proof.Machine

@[simp] theorem Overlap.afterRead_writes (o : Overlap) : o.afterRead.writes = o.writes := by
  unfold Overlap.afterRead; split <;> rfl

/-- A read moves the port's silence one read nearer and changes no other disturbance. -/
theorem Overlap.afterRead_disturbance (o : Overlap) :
    o.afterRead.disturbance = o.disturbance ∨
      ∃ n, o.disturbance = .portSilentAfter (n + 1) ∧ o.afterRead.disturbance = .portSilentAfter n := by
  unfold Overlap.afterRead
  split
  · rename_i n h; exact .inr ⟨n, h, rfl⟩
  · exact .inl rfl

theorem Overlap.afterRead_eq_self {o : Overlap} (h : ∀ n, o.disturbance ≠ .portSilentAfter n) :
    o.afterRead = o := by
  unfold Overlap.afterRead
  split
  · rename_i n hn; exact absurd hn (h _)
  · rfl

@[simp] theorem Overlap.afterRead_quiet : Overlap.quiet.afterRead = Overlap.quiet := rfl

@[simp] theorem Overlap.quiet_writes : Overlap.quiet.writes = [] := rfl

@[simp] theorem Overlap.quiet_disturbance : Overlap.quiet.disturbance = .none := rfl

theorem recordAt_congr {s t : State} (h1 : t.storage = s.storage) (h2 : t.cfg = s.cfg) (k : Nat) :
    recordAt t k = recordAt s k := by
  simp [recordAt, h1, h2]

/-- With no overlapping write the record holds one value (R54). -/
theorem heldValues_of_no_writes {s : State} (h : s.overlap.writes = []) (k : Nat) :
    heldValues s k = [recordAt s k] := by
  simp [heldValues, h]

theorem portWord_of_no_writes {s : State} (h : s.overlap.writes = []) (k : Nat) :
    portWord s k = recordAt s k := by
  simp [portWord, heldValues_of_no_writes h]

/-- A draw picks one of the values, for every free value (R67). -/
theorem drawHeld_mem {vs : List (Option Record)} (h : vs ≠ []) (fresh field : Nat) :
    drawHeld vs fresh field ∈ vs := by
  have hl : Config.drawIndex fresh field % vs.length < vs.length :=
    Nat.mod_lt _ (List.length_pos_iff.2 h)
  simp only [drawHeld, List.getD_eq_getElem _ _ hl]
  exact List.getElem_mem hl

theorem heldValues_ne_nil (s : State) (k : Nat) : heldValues s k ≠ [] := by simp [heldValues]

/-- A value a record holds is its value at the start or a whole record some write put there. -/
theorem heldValues_none {s : State} {k : Nat} (h : none ∈ heldValues s k) : recordAt s k = none := by
  simpa [heldValues, eq_comm] using h

/-- Where the storage does not tear, the port answers one of the values the record held (R54, R67). -/
theorem portWord_mem {s : State} (ht : s.cfg.tearing = false) (k : Nat) :
    portWord s k ∈ heldValues s k := by
  unfold portWord
  split
  · rename_i v hv; simp [hv]
  · rw [ht]; exact drawHeld_mem (heldValues_ne_nil s k) _ _

/-- The port finds no value only where the record was unwritten at the command's start (R154). -/
theorem portWord_eq_none {s : State} {k : Nat} (h : portWord s k = none) : recordAt s k = none := by
  unfold portWord at h
  split at h
  · rename_i v hv; exact heldValues_none (by simp [hv, h])
  · have key (field : Nat) (hf : drawHeld (heldValues s k) s.fresh field = none) : recordAt s k = none :=
      heldValues_none (hf ▸ drawHeld_mem (heldValues_ne_nil s k) _ _)
    split at h
    · unfold drawTorn at h
      split at h
      · exact absurd h (by simp)
      · rename_i hall
        rcases h0 : drawHeld (heldValues s k) s.fresh 0 with _ | a
        · exact key 0 h0
        rcases h1 : drawHeld (heldValues s k) s.fresh 1 with _ | b
        · exact key 1 h1
        rcases h2 : drawHeld (heldValues s k) s.fresh 2 with _ | c
        · exact key 2 h2
        rcases h3 : drawHeld (heldValues s k) s.fresh 3 with _ | d
        · exact key 3 h3
        rcases h4 : drawHeld (heldValues s k) s.fresh 4 with _ | e
        · exact key 4 h4
        exact absurd h4 (hall a b c d e h0 h1 h2 h3)
    · exact key 0 h

/-- All an answered read does: it counts itself and returns the port's word (R51). -/
theorem sprRead_ok {s t : State} {k : BitVec 8} {r : Record} (h : sprRead s k = .ok (r, t)) :
    t = s.countRead ∧ k < s.cap ∧ portWord s k.toNat = some r ∧
      s.overlap.disturbance ≠ .portSilentAfter 0 := by
  unfold sprRead at h
  split at h
  · exact absurd h (by simp)
  · rename_i hk
    split at h
    · exact absurd h (by simp)
    · rename_i hd
      split at h
      · rename_i r' hr
        simp only [Except.ok.injEq, Prod.mk.injEq] at h
        exact ⟨h.2.symm, BitVec.not_le.1 hk, h.1 ▸ hr, hd⟩
      · exact absurd h (by simp)

/-- All the ways a read can stop the machine (R50, R154, R161). -/
theorem sprRead_error {s : State} {k : BitVec 8} {f : Fault} (h : sprRead s k = .error f) :
    (s.cap ≤ k ∧ f = .spriteIndexOutOfRange k) ∨
      (k < s.cap ∧ s.overlap.disturbance = .portSilentAfter 0 ∧ f = .spritePortSilent) ∨
      (k < s.cap ∧ portWord s k.toNat = none ∧ f = .unwrittenRecord k) := by
  unfold sprRead at h
  split at h
  · rename_i hk; exact .inl ⟨hk, by simpa [eq_comm] using h⟩
  · rename_i hk
    have hk := BitVec.not_le.1 hk
    split at h
    · rename_i hd; exact .inr (.inl ⟨hk, hd, by simpa [eq_comm] using h⟩)
    · split at h
      · exact absurd h (by simp)
      · rename_i hr; exact .inr (.inr ⟨hk, hr, by simpa [eq_comm] using h⟩)

/-- A read below CAP is answered where the port is not silent and holds a word. -/
theorem sprRead_eq_ok {s : State} {k : BitVec 8} {r : Record} (hk : k < s.cap)
    (hd : s.overlap.disturbance ≠ .portSilentAfter 0) (hr : portWord s k.toNat = some r) :
    sprRead s k = .ok (r, s.countRead) := by
  simp [sprRead, BitVec.not_le.2 hk, hd, hr]

/-- The register of a defined access, at each of its four offsets (R55). -/
theorem portAccess_ok {c : Config} {addr width : Nat} {reg : PortReg}
    (h : portAccess c addr width = .ok reg) : definedAccess c addr width ∧ portReg (addr - c.regBase) = some reg := by
  unfold portAccess at h
  split at h
  · rename_i hw
    split at h
    · rename_i h4
      split at h
      · rename_i reg' hr
        have hreg : reg' = reg := by simpa using h
        subst hreg
        refine ⟨⟨h4, hw, ?_⟩, hr⟩
        unfold portReg at hr
        split at hr <;> simp_all
      · exact absurd h (by simp)
    · exact absurd h (by simp)
  · exact absurd h (by simp)

/-- A defined access reaches a register (R55, R56, R59). -/
theorem portAccess_defined {c : Config} {addr width : Nat} (h : definedAccess c addr width) :
    ∃ reg, portAccess c addr width = .ok reg := by
  obtain ⟨h4, hw, hm⟩ := h
  have hoff : addr - c.regBase = 0 ∨ addr - c.regBase = 4 ∨ addr - c.regBase = 8 ∨ addr - c.regBase = 12 := by
    obtain ⟨h1, h2⟩ := hw; omega
  unfold portAccess
  rw [if_pos hw, if_pos h4]
  rcases hoff with h | h | h | h <;> simp [h, portReg]

/-- Any other access is refused (R56, R59). -/
theorem portAccess_undefined {c : Config} {addr width : Nat} (h : ¬ definedAccess c addr width) :
    portAccess c addr width = .error (if inWindow c addr then .registerAccessUndefined else .outsideWindow) := by
  rcases hp : portAccess c addr width with r | reg
  · unfold portAccess at hp
    split at hp
    · rename_i hw
      split at hp
      · split at hp
        · exact absurd hp (by simp)
        · simp_all
      · simp_all
    · simp_all
  · exact absurd (portAccess_ok hp).1 h

end Sys2Proof.Machine
end

