-- ==== Sys2Proof/Laws/Command.lean ====
section
/-! SUPPORT. What closing a command does. -/

namespace Sys2Proof.Machine

theorem settleWrites_of_quiet {s : State} (h : s.overlap = Overlap.quiet) : s.settleWrites = s := by
  obtain ⟨⟩ := s
  simp_all [State.settleWrites]

/-- Where nothing overlapped the command, closing it changes nothing (R61). -/
theorem closeCommand_of_quiet {s : State} (h : s.overlap = Overlap.quiet) : s.closeCommand = s := by
  unfold State.closeCommand
  simp [h, settleWrites_of_quiet h]

theorem closeCommand_of_no_reset {s : State} (h : ∀ n, s.overlap.disturbance ≠ .resetAfter n) :
    s.closeCommand = s.settleWrites := by
  unfold State.closeCommand
  split
  · rename_i n hn; exact absurd hn (h n)
  · rfl

theorem closeCommand_of_reset {s : State} {n : Nat} (h : s.overlap.disturbance = .resetAfter n) :
    s.closeCommand = s.settleWrites.resetBlock := by
  unfold State.closeCommand
  simp [h]

/-- Closing a command leaves the block as it stands, or resets it (R151). -/
theorem closeCommand_cases (s : State) :
    s.closeCommand = s.settleWrites ∨ s.closeCommand = s.settleWrites.resetBlock := by
  unfold State.closeCommand
  split
  · exact .inr rfl
  · exact .inl rfl

@[simp] theorem closeCommand_storage (s : State) :
    s.closeCommand.storage = writeRecords s.cfg s.overlap.writes s.storage := by
  rcases closeCommand_cases s with h | h <;> simp [h]

@[simp] theorem closeCommand_cfg (s : State) : s.closeCommand.cfg = s.cfg := by
  rcases closeCommand_cases s with h | h <;> simp [h]

@[simp] theorem closeCommand_host (s : State) : s.closeCommand.host = s.host := by
  rcases closeCommand_cases s with h | h <;> simp [h]

@[simp] theorem closeCommand_rdata (s : State) : s.closeCommand.rdata = s.rdata := by
  rcases closeCommand_cases s with h | h <;> simp [h]

@[simp] theorem closeCommand_reads (s : State) : s.closeCommand.reads = s.reads := by
  rcases closeCommand_cases s with h | h <;> simp [h]

@[simp] theorem closeCommand_overlap (s : State) : s.closeCommand.overlap = Overlap.quiet := by
  rcases closeCommand_cases s with h | h <;> simp [h]

end Sys2Proof.Machine
end

