-- ==== Sys2Proof/Laws/Sequencer.lean ====
section
/-! SUPPORT. What one micro-step of the sequencer can do, what no micro-step changes, and how a property
of micro-steps carries over to a run of them. -/

namespace Sys2Proof.Machine

/-- Everything a micro-step that goes on can do (R110). -/
theorem seqStep_next {s t : State} (h : seqStep s = .next t) :
    (s.label = .outer ∧ ∃ a, sprRead s s.curI = .ok (a, s.countRead) ∧
      (collidable s.cfg a = true ∧ t = s.countRead.enterInner a ∨
        collidable s.cfg a = false ∧ t = s.countRead.skipRow a)) ∨
    (s.label = .inner ∧ ∃ b, sprRead s s.curJ = .ok (b, s.countRead) ∧
      ((collidable s.cfg b && overlaps s.cfg s.aLat b) = true ∧ t = s.countRead.reportHit ∨
        (collidable s.cfg b && overlaps s.cfg s.aLat b) = false ∧
          (s.curJ.toNat + 1 < s.cap.toNat ∧ t = s.countRead.nextJ ∨
            s.cap.toNat ≤ s.curJ.toNat + 1 ∧ t = s.countRead.endRow))) ∨
    (s.label = .nextI ∧
      (s.curI.toNat + 2 < s.cap.toNat ∧ t = s.nextRow ∨
        s.cap.toNat ≤ s.curI.toNat + 2 ∧ t = s.reportNone)) := by
  unfold seqStep at h
  split at h
  · rename_i hl
    unfold stepOuter at h
    split at h
    · exact absurd h (by simp)
    · rename_i a s' hr
      obtain ⟨rfl, -⟩ := sprRead_ok hr
      refine .inl ⟨hl, a, hr, ?_⟩
      split at h
      · rename_i hc; exact .inl ⟨hc, by simpa [eq_comm] using h⟩
      · rename_i hc; exact .inr ⟨by simpa using hc, by simpa [eq_comm] using h⟩
  · rename_i hl
    unfold stepInner at h
    split at h
    · exact absurd h (by simp)
    · rename_i b s' hr
      obtain ⟨rfl, -⟩ := sprRead_ok hr
      refine .inr (.inl ⟨hl, b, hr, ?_⟩)
      split at h
      · rename_i hc; exact .inl ⟨hc, by simpa [eq_comm] using h⟩
      · rename_i hc
        refine .inr ⟨by simpa using hc, ?_⟩
        split at h
        · rename_i hj; exact .inl ⟨hj, by simpa [eq_comm] using h⟩
        · rename_i hj; exact .inr ⟨Nat.not_lt.1 hj, by simpa [eq_comm] using h⟩
  · rename_i hl
    unfold stepNextI at h
    refine .inr (.inr ⟨hl, ?_⟩)
    split at h
    · rename_i hi; exact .inl ⟨hi, by simpa [eq_comm] using h⟩
    · rename_i hi; exact .inr ⟨Nat.not_lt.1 hi, by simpa [eq_comm] using h⟩

/-- A micro-step stops only where its read does. -/
theorem seqStep_fault {s : State} {f : Fault} (h : seqStep s = .fault f) :
    (s.label = .outer ∧ sprRead s s.curI = .error f) ∨ (s.label = .inner ∧ sprRead s s.curJ = .error f) := by
  unfold seqStep at h
  split at h
  · rename_i hl
    unfold stepOuter at h
    split at h
    · rename_i hr; exact .inl ⟨hl, by simp_all⟩
    · split at h <;> exact absurd h (by simp)
  · rename_i hl
    unfold stepInner at h
    split at h
    · rename_i hr; exact .inr ⟨hl, by simp_all⟩
    · split at h
      · exact absurd h (by simp)
      · split at h <;> exact absurd h (by simp)
  · unfold stepNextI at h
    split at h <;> exact absurd h (by simp)

/-- No micro-step is refused. -/
theorem seqStep_not_refused (s : State) (r : Refusal) : seqStep s ≠ .refused r := by
  unfold seqStep stepOuter stepInner stepNextI
  intro h
  repeat' split at h
  all_goals exact absurd h (by simp)

/-- What no micro-step changes: CAP, storage, the parameters, and everything of the host's (R109). -/
structure SeqFrame (s t : State) : Prop where
  cap : t.cap = s.cap
  storage : t.storage = s.storage
  cfg : t.cfg = s.cfg
  host : t.host = s.host
  rdata : t.rdata = s.rdata
  writes : t.overlap.writes = s.overlap.writes
  disturbance : t.overlap.disturbance = s.overlap.disturbance ∨
    ∃ m n, s.overlap.disturbance = .portSilentAfter m ∧ t.overlap.disturbance = .portSilentAfter n

theorem SeqFrame.refl (s : State) : SeqFrame s s := ⟨rfl, rfl, rfl, rfl, rfl, rfl, .inl rfl⟩

theorem SeqFrame.trans {s t u : State} (h : SeqFrame s t) (k : SeqFrame t u) : SeqFrame s u where
  cap := k.cap.trans h.cap
  storage := k.storage.trans h.storage
  cfg := k.cfg.trans h.cfg
  host := k.host.trans h.host
  rdata := k.rdata.trans h.rdata
  writes := k.writes.trans h.writes
  disturbance := by
    rcases h.disturbance with h1 | ⟨m, n, h1, h2⟩ <;> rcases k.disturbance with k1 | ⟨m', n', k1, k2⟩
    · exact .inl (k1.trans h1)
    · exact .inr ⟨m', n', h1 ▸ k1, k2⟩
    · exact .inr ⟨m, n, h1, k1 ▸ h2⟩
    · exact .inr ⟨m, n', h1, k2⟩

theorem countRead_frame (s : State) : SeqFrame s s.countRead := by
  refine ⟨rfl, rfl, rfl, rfl, rfl, by simp, ?_⟩
  rcases s.overlap.afterRead_disturbance with h | ⟨n, h1, h2⟩
  · exact .inl h
  · exact .inr ⟨n + 1, n, h1, h2⟩

theorem seqStep_frame {s t : State} (h : seqStep s = .next t) : SeqFrame s t := by
  have hc := countRead_frame s
  rcases seqStep_next h with ⟨-, a, -, ⟨-, rfl⟩ | ⟨-, rfl⟩⟩ |
    ⟨-, b, -, ⟨-, rfl⟩ | ⟨-, ⟨-, rfl⟩ | ⟨-, rfl⟩⟩⟩ | ⟨-, ⟨-, rfl⟩ | ⟨-, rfl⟩⟩
  · exact ⟨hc.cap, hc.storage, hc.cfg, hc.host, hc.rdata, hc.writes, hc.disturbance⟩
  · exact ⟨hc.cap, hc.storage, hc.cfg, hc.host, hc.rdata, hc.writes, hc.disturbance⟩
  · exact ⟨hc.cap, hc.storage, hc.cfg, hc.host, hc.rdata, hc.writes, hc.disturbance⟩
  · exact ⟨hc.cap, hc.storage, hc.cfg, hc.host, hc.rdata, hc.writes, hc.disturbance⟩
  · exact ⟨hc.cap, hc.storage, hc.cfg, hc.host, hc.rdata, hc.writes, hc.disturbance⟩
  · exact ⟨rfl, rfl, rfl, rfl, rfl, rfl, .inl rfl⟩
  · exact ⟨rfl, rfl, rfl, rfl, rfl, rfl, .inl rfl⟩

/-- A relation that holds of no micro-step, and carries on through one, holds of a whole run. -/
theorem runSeq_relation {R : State → State → Prop} (refl : ∀ s, R s s)
    (trans : ∀ {s t u}, R s t → R t u → R s u)
    (micro : ∀ {s t}, s.phase = .scanning → seqStep s = .next t → R s t) :
    ∀ {n : Nat} {s t : State}, runSeq n s = .next t → R s t
  | 0, s, t, h => by
    have : s = t := by simpa [runSeq] using h
    exact this ▸ refl s
  | n + 1, s, t, h => by
    unfold runSeq at h
    split at h
    · have : s = t := by simpa using h
      exact this ▸ refl s
    · rename_i hp
      split at h
      · rename_i s' hs
        exact trans (micro hp hs) (runSeq_relation refl trans micro h)
      · exact absurd h (by simp)
      · exact absurd h (by simp)

theorem runSeq_frame {n : Nat} {s t : State} (h : runSeq n s = .next t) : SeqFrame s t :=
  runSeq_relation SeqFrame.refl SeqFrame.trans (fun _ => seqStep_frame) h

/-- What a property kept by every micro-step says of a run: it holds where the run ends, and where a run
that faults has its faulting micro-step. -/
theorem runSeq_invariant {P : State → Prop}
    (micro : ∀ {s t}, s.phase = .scanning → P s → seqStep s = .next t → P t) :
    ∀ {n : Nat} {s : State}, P s →
      (∀ t, runSeq n s = .next t → P t) ∧
        ∀ f, runSeq n s = .fault f → ∃ u, P u ∧ SeqFrame s u ∧ u.phase = .scanning ∧ seqStep u = .fault f
  | 0, s, hs => by
    refine ⟨fun t h => ?_, fun f h => absurd h (by simp [runSeq])⟩
    have : s = t := by simpa [runSeq] using h
    exact this ▸ hs
  | n + 1, s, hs => by
    refine ⟨fun t h => ?_, fun f h => ?_⟩
    · unfold runSeq at h
      split at h
      · have : s = t := by simpa using h
        exact this ▸ hs
      · rename_i hp
        split at h
        · rename_i s' hs'
          exact (runSeq_invariant micro (micro hp hs hs')).1 t h
        · exact absurd h (by simp)
        · exact absurd h (by simp)
    · unfold runSeq at h
      split at h
      · exact absurd h (by simp)
      · rename_i hp
        split at h
        · rename_i s' hs'
          obtain ⟨u, hu, hf, hr⟩ := (runSeq_invariant micro (micro hp hs hs')).2 f h
          exact ⟨u, hu, (seqStep_frame hs').trans hf, hr⟩
        · rename_i f' hf
          exact ⟨s, hs, SeqFrame.refl s, hp, by simp_all⟩
        · exact absurd h (by simp)

/-- No run of the sequencer is refused. -/
theorem runSeq_not_refused (r : Refusal) : ∀ (n : Nat) (s : State), runSeq n s ≠ .refused r
  | 0, s => by simp [runSeq]
  | n + 1, s => by
    unfold runSeq
    split
    · simp
    · split
      · exact runSeq_not_refused r n _
      · simp
      · rename_i r' h; exact absurd h (seqStep_not_refused s r')

/-- Everything a whole command can do once its scan has begun: it stops at its read, or it closes the state
its run ends in. -/
theorem runScan_next {s t : State} (h : runScan s = .next t) :
    ∃ u, runSeq (seqBudget s) s = .next u ∧ t = u.closeCommand := by
  unfold runScan at h
  split at h
  · rename_i u hu; exact ⟨u, hu, by simpa [eq_comm] using h⟩
  · exact absurd h (by simp)
  · exact absurd h (by simp)

/-! A scan ends. -/

/-- Two runs in a row are one run. -/
theorem runSeq_add (m n : Nat) (s : State) :
    runSeq (m + n) s =
      match runSeq m s with
      | .next u => runSeq n u
      | .fault f => .fault f
      | .refused r => .refused r := by
  induction m generalizing s with
  | zero => simp [runSeq]
  | succ m ih =>
    rw [Nat.succ_add]
    cases hp : s.phase with
    | idle =>
      have : ∀ k, runSeq k s = .next s := by
        intro k; cases k <;> simp [runSeq, hp]
      simp [this]
    | scanning =>
      simp only [runSeq, hp]
      cases seqStep s with
      | next u => exact ih u
      | fault f => rfl
      | refused r => rfl

theorem runSeq_of_idle {s : State} (h : s.phase = .idle) (n : Nat) : runSeq n s = .next s := by
  cases n <;> simp [runSeq, h]

theorem runSeq_succ {s t : State} (hp : s.phase = .scanning) (h : seqStep s = .next t) (n : Nat) :
    runSeq (n + 1) s = runSeq n t := by
  simp [runSeq, hp, h]

/-- What is left of a scan, a number that every micro-step lowers (R115). -/
def seqMeasure (s : State) : Nat :=
  let c := s.cap.toNat
  let i := s.curI.toNat
  match s.label with
  | .outer => (c - i) * (c + 2)
  | .inner => (c - i - 1) * (c + 2) + (c - s.curJ.toNat) + 1
  | .nextI => (c - i - 1) * (c + 2) + 1

theorem toNat_add_one {x c : BitVec 8} (h : x < c) : (x + 1).toNat = x.toNat + 1 := by
  have := c.isLt
  have h : x.toNat < c.toNat := h
  rw [BitVec.toNat_add, show (1 : BitVec 8).toNat = 1 from rfl]
  omega

theorem seqStep_lowers {s t : State} (h : seqStep s = .next t) (ht : t.phase = .scanning) :
    seqMeasure t < seqMeasure s := by
  have hcap := (seqStep_frame h).cap
  rcases seqStep_next h with ⟨hl, a, hr, ⟨-, rfl⟩ | ⟨-, rfl⟩⟩ |
    ⟨hl, b, hr, ⟨-, rfl⟩ | ⟨-, ⟨hj, rfl⟩ | ⟨-, rfl⟩⟩⟩ | ⟨hl, ⟨hi, rfl⟩ | ⟨-, rfl⟩⟩
  · have hlt := (sprRead_ok hr).2.1
    have h1 := toNat_add_one hlt
    have hlt : s.curI.toNat < s.cap.toNat := hlt
    obtain ⟨d, hd⟩ : ∃ d, s.cap.toNat - s.curI.toNat = d + 1 := ⟨s.cap.toNat - s.curI.toNat - 1, by omega⟩
    simp only [seqMeasure, enterInner_label, enterInner_cap, countRead_cap, enterInner_curI, countRead_curI,
      enterInner_curJ, h1, hl, hd, Nat.add_sub_cancel, Nat.succ_mul]
    omega
  · have hlt : s.curI.toNat < s.cap.toNat := (sprRead_ok hr).2.1
    obtain ⟨d, hd⟩ : ∃ d, s.cap.toNat - s.curI.toNat = d + 1 := ⟨s.cap.toNat - s.curI.toNat - 1, by omega⟩
    simp only [seqMeasure, skipRow_label, skipRow_cap, countRead_cap, skipRow_curI, countRead_curI,
      hl, hd, Nat.add_sub_cancel, Nat.succ_mul]
    omega
  · simp [State.reportHit] at ht
  · have hlt := (sprRead_ok hr).2.1
    have h1 := toNat_add_one hlt
    simp only [seqMeasure, nextJ_label, nextJ_cap, countRead_cap, nextJ_curI, countRead_curI,
      nextJ_curJ, countRead_curJ, h1, hl]
    omega
  · have hlt : s.curJ.toNat < s.cap.toNat := (sprRead_ok hr).2.1
    simp only [seqMeasure, endRow_label, endRow_cap, countRead_cap, endRow_curI, countRead_curI, hl]
    omega
  · have h1 : (s.curI + 1).toNat = s.curI.toNat + 1 :=
      toNat_add_one (c := s.cap) (by show s.curI.toNat < s.cap.toNat; omega)
    simp only [seqMeasure, nextRow_label, nextRow_cap, nextRow_curI, h1, hl, Nat.sub_sub]
    omega
  · simp [State.reportNone] at ht

theorem seqMeasure_lt (s : State) : seqMeasure s < scanBound s.cap.toNat := by
  have h1 : ∀ k ≤ s.cap.toNat, k * (s.cap.toNat + 2) ≤ s.cap.toNat * (s.cap.toNat + 2) :=
    fun k hk => Nat.mul_le_mul_right _ hk
  have h2 : scanBound s.cap.toNat =
      s.cap.toNat * (s.cap.toNat + 2) + 2 * (s.cap.toNat + 2) := by
    simp only [scanBound, Nat.add_mul]
  have h3 := h1 (s.cap.toNat - s.curI.toNat) (Nat.sub_le _ _)
  have h4 := h1 (s.cap.toNat - s.curI.toNat - 1) (by omega)
  unfold seqMeasure
  cases s.label <;> simp only [h2] <;> omega

/-- A run of more micro-steps than are left ends IDLE (R115). -/
theorem runSeq_ends_idle : ∀ {n : Nat} {s t : State}, seqMeasure s < n → runSeq n s = .next t → t.phase = .idle
  | 0, _, _, h, _ => absurd h (Nat.not_lt_zero _)
  | n + 1, s, t, hm, h => by
    cases hp : s.phase with
    | idle =>
      rw [runSeq_of_idle hp] at h
      have : s = t := by simpa using h
      exact this ▸ hp
    | scanning =>
      simp only [runSeq, hp] at h
      cases hs : seqStep s with
      | next u =>
        rw [hs] at h
        simp only at h
        cases hu : u.phase with
        | idle =>
          rw [runSeq_of_idle hu] at h
          have : u = t := by simpa using h
          exact this ▸ hu
        | scanning => exact runSeq_ends_idle (by have := seqStep_lowers hs hu; omega) h
      | fault f => rw [hs] at h; exact absurd h (by simp)
      | refused r => rw [hs] at h; exact absurd h (by simp)

/-- A run that reaches an IDLE state in some number of micro-steps reaches it within the bound. -/
theorem runSeq_bound {k : Nat} {s t : State} (ht : t.phase = .idle) (h : runSeq k s = .next t) :
    runSeq (scanBound s.cap.toNat) s = .next t := by
  have h1 := runSeq_add k (scanBound s.cap.toNat) s
  have h2 := runSeq_add (scanBound s.cap.toNat) k s
  rw [h] at h1
  simp only [runSeq_of_idle ht] at h1
  rw [Nat.add_comm, h1] at h2
  cases hb : runSeq (scanBound s.cap.toNat) s with
  | next u =>
    rw [hb] at h2
    have hu := runSeq_ends_idle (seqMeasure_lt s) hb
    simp only [runSeq_of_idle hu] at h2
    exact h2.symm
  | fault f => rw [hb] at h2; exact absurd h2 (by simp)
  | refused r => rw [hb] at h2; exact absurd h2 (by simp)

end Sys2Proof.Machine
end

