-- ==== Sys2Proof/Laws/Scan.lean ====
section
/-! SUPPORT. What the sequencer does over stable sprite memory (R61): one row of pairs, and all rows from
one on, against FirstHit (R105) and the reads it takes (R115). -/

namespace Sys2Proof.Machine

/-- `t` is reached from `s` in `k` micro-steps, with nothing overlapping: what every such stretch keeps. -/
structure Stretch (k : Nat) (s t : State) : Prop where
  run : ∀ n, runSeq (k + n) s = runSeq n t
  frame : SeqFrame s t
  quiet : t.overlap = s.overlap

theorem Stretch.refl (s : State) : Stretch 0 s s := ⟨fun n => by rw [Nat.zero_add], SeqFrame.refl s, rfl⟩

theorem Stretch.trans {k l : Nat} {s t u : State} (h : Stretch k s t) (h' : Stretch l t u) :
    Stretch (k + l) s u :=
  ⟨fun n => by rw [Nat.add_assoc, h.run, h'.run], h.frame.trans h'.frame, h'.quiet.trans h.quiet⟩

theorem Stretch.one {s t : State} (hp : s.phase = .scanning) (h : seqStep s = .next t)
    (hq : t.overlap = s.overlap) : Stretch 1 s t :=
  ⟨fun n => by rw [Nat.add_comm, runSeq_succ hp h], seqStep_frame h, hq⟩

theorem memAgrees_mono {s : State} {mem : Nat → Record} {lo hi lo' hi' : Nat} (h : memAgrees s mem lo hi)
    (h1 : lo ≤ lo') (h2 : hi' ≤ hi) : memAgrees s mem lo' hi' :=
  fun k hk hk' => h k (Nat.le_trans h1 hk) (Nat.lt_of_lt_of_le hk' h2)

theorem memAgrees_frame {s t : State} {mem : Nat → Record} {lo hi : Nat} (h : memAgrees s mem lo hi)
    (f : SeqFrame s t) : memAgrees t mem lo hi :=
  fun k hk hk' => by rw [recordAt_congr f.storage f.cfg]; exact h k hk hk'

theorem sprRead_quiet {s : State} {k : BitVec 8} {r : Record} (hq : s.overlap = Overlap.quiet)
    (hk : k < s.cap) (hr : recordAt s k.toNat = some r) : sprRead s k = .ok (r, s.countRead) :=
  sprRead_eq_ok hk (by simp [hq]) (by rw [portWord_of_no_writes (by simp [hq]), hr])

theorem countRead_quiet {s : State} (hq : s.overlap = Overlap.quiet) : s.countRead.overlap = s.overlap := by
  simp [hq]

/-- The rest of a row, from the pair (CUR_I, CUR_J) on. -/
theorem row_from {mem : Nat → Record} : ∀ (d : Nat) (s : State), s.phase = .scanning → s.label = .inner →
    s.overlap = Overlap.quiet → s.curJ.toNat + d + 1 = s.cap.toNat →
    memAgrees s mem s.curJ.toNat s.cap.toNat →
    match (List.range' s.curJ.toNat (d + 1)).find? fun j =>
        collidable s.cfg (mem j) && overlaps s.cfg s.aLat (mem j) with
    | some j => ∃ t, Stretch (j - s.curJ.toNat + 1) s t ∧ t.phase = .idle ∧ t.status = 0x10 ∧
        t.result = encodePair s.curI (BitVec.ofNat 8 j) ∧ s.curJ.toNat ≤ j ∧ j < s.cap.toNat ∧
        t.reads = s.reads + (j - s.curJ.toNat + 1)
    | none => ∃ t, Stretch (d + 1) s t ∧ t.phase = .scanning ∧ t.label = .nextI ∧ t.curI = s.curI ∧
        t.status = s.status ∧ t.result = s.result ∧ t.reads = s.reads + (d + 1)
  | d, s, hp, hl, hq, hd, hm => by
    have hjlt : s.curJ < s.cap := by show s.curJ.toNat < s.cap.toNat; omega
    have hr := sprRead_quiet hq hjlt (hm _ (Nat.le_refl _) (by omega))
    have hstep : seqStep s = stepInner s := by simp [seqStep, hl]
    rw [List.range'_succ, List.find?_cons]
    cases hhit : (collidable s.cfg (mem s.curJ.toNat) && overlaps s.cfg s.aLat (mem s.curJ.toNat)) with
    | true =>
      simp only
      have h1 : seqStep s = .next s.countRead.reportHit := by simp [hstep, stepInner, hr, hhit]
      refine ⟨s.countRead.reportHit, ?_, rfl, rfl, ?_, Nat.le_refl _, by omega, ?_⟩
      · rw [Nat.sub_self]
        exact Stretch.one hp h1 (countRead_quiet hq)
      · simp [State.reportHit]
      · simp [State.reportHit]
    | false =>
      simp only
      cases d with
      | zero =>
        simp only [List.range'_zero, List.find?_nil]
        have h1 : seqStep s = .next s.countRead.endRow := by
          simp [hstep, stepInner, hr, hhit, show ¬ (s.curJ.toNat + 1 < s.cap.toNat) by omega]
        exact ⟨s.countRead.endRow, Stretch.one hp h1 (countRead_quiet hq), hp, rfl, rfl, rfl, rfl, rfl⟩
      | succ d =>
        have h1 : seqStep s = .next s.countRead.nextJ := by
          simp [hstep, stepInner, hr, hhit, show s.curJ.toNat + 1 < s.cap.toNat by omega]
        have hS := Stretch.one hp h1 (countRead_quiet hq)
        have hj : (s.countRead.nextJ).curJ.toNat = s.curJ.toNat + 1 := toNat_add_one hjlt
        have ih := row_from (mem := mem) d s.countRead.nextJ hp rfl (hS.quiet.trans hq)
          (by rw [hj]; show _ = s.cap.toNat; omega)
          (memAgrees_mono (memAgrees_frame hm hS.frame) (by omega) (Nat.le_refl _))
        rw [hj] at ih
        change match (List.range' (s.curJ.toNat + 1) (d + 1)).find? fun j =>
          collidable s.cfg (mem j) && overlaps s.cfg s.aLat (mem j) with | some j => _ | none => _ at ih
        cases hf : (List.range' (s.curJ.toNat + 1) (d + 1)).find? fun j =>
          collidable s.cfg (mem j) && overlaps s.cfg s.aLat (mem j) with
        | none =>
          rw [hf] at ih
          obtain ⟨t, hT, h2, h3, h4, h5, h6, h7⟩ := ih
          refine ⟨t, ?_, h2, h3, h4, h5, h6, ?_⟩
          · have := hS.trans hT
            rwa [Nat.add_comm] at this
          · rw [h7]; simp; omega
        | some j =>
          rw [hf] at ih
          obtain ⟨t, hT, h2, h3, h4, h5, h6, h7⟩ := ih
          refine ⟨t, ?_, h2, h3, h4, by omega, h6, ?_⟩
          · have := hS.trans hT
            rwa [show 1 + (j - (s.curJ.toNat + 1) + 1) = j - s.curJ.toNat + 1 by omega] at this
          · rw [h7]; simp; omega

theorem rowsReads_succ (c : Config) (mem : Nat → Record) (cap lo hi : Nat) (h : lo < hi) :
    rowsReads c mem cap lo hi = rowReads c mem cap lo + rowsReads c mem cap (lo + 1) hi := by
  unfold rowsReads
  obtain ⟨d, hd⟩ : ∃ d, hi - lo = d + 1 := ⟨hi - lo - 1, by omega⟩
  rw [hd, show hi - (lo + 1) = d by omega, List.range'_succ]
  simp

theorem rowsReads_self (c : Config) (mem : Nat → Record) (cap lo : Nat) : rowsReads c mem cap lo lo = 0 := by
  simp [rowsReads]

/-- From the start of a row to the end of the scan. -/
theorem rows_from {mem : Nat → Record} : ∀ (d : Nat) (s : State), s.phase = .scanning → s.label = .outer →
    s.overlap = Overlap.quiet → s.curI.toNat + d + 2 = s.cap.toNat →
    memAgrees s mem s.curI.toNat s.cap.toNat →
    ∃ k t, Stretch k s t ∧ t.phase = .idle ∧
      match firstHit s.cfg mem s.curI.toNat s.cap.toNat with
      | some (i, j) => t.status = 0x10 ∧ t.result = encodePair (BitVec.ofNat 8 i) (BitVec.ofNat 8 j) ∧
          s.curI.toNat ≤ i ∧ i < j ∧ j < s.cap.toNat ∧
          t.reads = s.reads + rowsReads s.cfg mem s.cap.toNat s.curI.toNat i + 1 + (j - i)
      | none => t.status = 0x00 ∧ t.result = s.result ∧
          t.reads = s.reads + rowsReads s.cfg mem s.cap.toNat s.curI.toNat (s.cap.toNat - 1)
  | d, s, hp, hl, hq, hd, hm => by
    have hilt : s.curI < s.cap := by show s.curI.toNat < s.cap.toNat; omega
    have hr := sprRead_quiet hq hilt (hm _ (Nat.le_refl _) (by omega))
    have hstep : seqStep s = stepOuter s := by simp [seqStep, hl]
    have rest : ∀ (k : Nat) (u : State), Stretch k s u → u.phase = .scanning → u.label = .nextI →
        u.curI = s.curI → u.result = s.result →
        u.reads = s.reads + rowReads s.cfg mem s.cap.toNat s.curI.toNat →
        ∃ k t, Stretch k s t ∧ t.phase = .idle ∧
          match firstHit s.cfg mem (s.curI.toNat + 1) s.cap.toNat with
          | some (i, j) => t.status = 0x10 ∧ t.result = encodePair (BitVec.ofNat 8 i) (BitVec.ofNat 8 j) ∧
              s.curI.toNat ≤ i ∧ i < j ∧ j < s.cap.toNat ∧
              t.reads = s.reads + rowsReads s.cfg mem s.cap.toNat s.curI.toNat i + 1 + (j - i)
          | none => t.status = 0x00 ∧ t.result = s.result ∧
              t.reads = s.reads + rowsReads s.cfg mem s.cap.toNat s.curI.toNat (s.cap.toNat - 1) := by
      intro k u hS hup hul hui hures hureads
      have hucap := hS.frame.cap
      cases d with
      | zero =>
        have h1 : seqStep u = .next u.reportNone := by
          simp [seqStep, hul, stepNextI, hui, hucap, show ¬ (s.curI.toNat + 2 < s.cap.toNat) by omega]
        refine ⟨k + 1, u.reportNone, hS.trans (Stretch.one hup h1 rfl), rfl, ?_⟩
        have hnone : firstHit s.cfg mem (s.curI.toNat + 1) s.cap.toNat = none := by
          simp [firstHit, show s.cap.toNat - 1 - (s.curI.toNat + 1) = 0 by omega]
        rw [hnone]
        refine ⟨rfl, hures, ?_⟩
        rw [rowsReads_succ _ _ _ _ _ (by omega), show s.cap.toNat - 1 = s.curI.toNat + 1 by omega, rowsReads_self]
        exact hureads
      | succ d =>
        have h1 : seqStep u = .next u.nextRow := by
          simp [seqStep, hul, stepNextI, hui, hucap, show s.curI.toNat + 2 < s.cap.toNat by omega]
        have hS' := hS.trans (Stretch.one hup h1 rfl)
        have hi : (u.nextRow).curI.toNat = s.curI.toNat + 1 := by
          show (u.curI + 1).toNat = _
          rw [hui]; exact toNat_add_one hilt
        obtain ⟨k', t, hT, htp, ht⟩ := rows_from (mem := mem) d u.nextRow hup rfl (hS'.quiet.trans hq)
          (by rw [hi]; show _ = u.cap.toNat; rw [hucap]; omega)
          (memAgrees_mono (memAgrees_frame hm hS'.frame) (by omega) (by show u.cap.toNat ≤ _; rw [hucap]))
        refine ⟨k + 1 + k', t, hS'.trans hT, htp, ?_⟩
        rw [hi] at ht
        simp only [nextRow_cfg, nextRow_cap, hucap, hS.frame.cfg, nextRow_reads, nextRow_result, hureads, hures] at ht
        cases hf : firstHit s.cfg mem (s.curI.toNat + 1) s.cap.toNat with
        | none =>
          rw [hf] at ht
          refine ⟨ht.1, ht.2.1, ?_⟩
          rw [rowsReads_succ _ _ _ _ _ (by omega), ht.2.2]; omega
        | some p =>
          obtain ⟨i, j⟩ := p
          rw [hf] at ht
          obtain ⟨h2, h3, h4, h5, h6, h7⟩ := ht
          refine ⟨h2, h3, by omega, h5, h6, ?_⟩
          rw [rowsReads_succ _ _ _ _ _ (by omega), h7]; omega
    have hfirst : firstHit s.cfg mem s.curI.toNat s.cap.toNat =
        match (if collidable s.cfg (mem s.curI.toNat) then
          ((List.range' (s.curI.toNat + 1) (s.cap.toNat - 1 - s.curI.toNat)).find? fun j =>
            collidable s.cfg (mem j) && overlaps s.cfg (mem s.curI.toNat) (mem j)).map fun j => (s.curI.toNat, j)
          else none) with
        | some p => some p
        | none => firstHit s.cfg mem (s.curI.toNat + 1) s.cap.toNat := by
      rw [firstHit, show s.cap.toNat - 1 - s.curI.toNat = d + 1 by omega, List.range'_succ, List.findSome?_cons]
      rw [firstHit, show s.cap.toNat - 1 - (s.curI.toNat + 1) = d by omega,
        show s.cap.toNat - 1 - s.curI.toNat = d + 1 by omega]
      generalize ite (collidable s.cfg (mem s.curI.toNat) = true) _ none = o
      cases o <;> rfl
    cases hc : collidable s.cfg (mem s.curI.toNat) with
    | false =>
      have h1 : seqStep s = .next (s.countRead.skipRow (mem s.curI.toNat)) := by
        simp [hstep, stepOuter, hr, hc]
      rw [hfirst, hc]
      refine rest 1 _ (Stretch.one hp h1 (countRead_quiet hq)) hp rfl rfl rfl ?_
      simp [rowReads, hc]
    | true =>
      have h1 : seqStep s = .next (s.countRead.enterInner (mem s.curI.toNat)) := by
        simp [hstep, stepOuter, hr, hc]
      have hS := Stretch.one hp h1 (countRead_quiet hq)
      have hj : (s.countRead.enterInner (mem s.curI.toNat)).curJ.toNat = s.curI.toNat + 1 := toNat_add_one hilt
      have hrow := row_from (mem := mem) d (s.countRead.enterInner (mem s.curI.toNat)) hp rfl (hS.quiet.trans hq)
        (by rw [hj]; show _ = s.cap.toNat; omega)
        (memAgrees_mono (memAgrees_frame hm hS.frame) (by omega) (Nat.le_refl _))
      rw [hj] at hrow
      simp only [enterInner_cfg, countRead_cfg, enterInner_aLat, enterInner_cap, countRead_cap, enterInner_curI,
        countRead_curI, enterInner_status, countRead_status, enterInner_result, countRead_result,
        enterInner_reads, countRead_reads] at hrow
      rw [hfirst, hc]
      simp only [if_true, show s.cap.toNat - 1 - s.curI.toNat = d + 1 by omega]
      cases hf : (List.range' (s.curI.toNat + 1) (d + 1)).find? fun j =>
          collidable s.cfg (mem j) && overlaps s.cfg (mem s.curI.toNat) (mem j) with
      | none =>
        rw [hf] at hrow
        obtain ⟨t, hT, h2, h3, h4, h5, h6, h7⟩ := hrow
        simp only [Option.map_none]
        refine rest _ t (hS.trans hT) h2 h3 h4 h6 ?_
        simp only [rowReads, hc, if_true, h7]; omega
      | some j =>
        rw [hf] at hrow
        obtain ⟨t, hT, h2, h3, h4, h5, h6, h7⟩ := hrow
        simp only [Option.map_some]
        refine ⟨_, t, hS.trans hT, h2, h3, ?_, Nat.le_refl _, by omega, h6, ?_⟩
        · rw [h4]; simp
        · rw [h7, rowsReads_self]; omega

end Sys2Proof.Machine
end

