-- ==== Sys2Proof/Laws/Exec.lean ====
section
/-! SUPPORT. What each command can come to, one lemma per constructor of Instr, and what a word written to
CMD can come to. -/

namespace Sys2Proof.Machine

/-- A SCAN past its checks with a pair to examine is a run of the sequencer (R110). -/
theorem exec_scan_run {s : State} {n : Nat} (h : n + 1 < s.cap.toNat) :
    exec (.scan n) s = runScan (s.enterScan (BitVec.ofNat 8 n)) := by
  simp only [exec, execScan, scanCommand, show ¬ s.cap.toNat ≤ n by omega,
    show ¬ s.cap.toNat ≤ n + 1 by omega, if_false, Bool.not_true, Bool.false_eq_true]

theorem exec_scan_cases (s : State) (n : Nat) :
    (s.cap.toNat ≤ n ∧ exec (.scan n) s = .next (s.raiseStatus codeStartTooHigh).closeCommand) ∨
    (n + 1 = s.cap.toNat ∧ exec (.scan n) s = .next (s.finish codeOk).closeCommand) ∨
    (n + 1 < s.cap.toNat ∧ exec (.scan n) s = runScan (s.enterScan (BitVec.ofNat 8 n))) := by
  by_cases h1 : s.cap.toNat ≤ n
  · exact .inl ⟨h1, by simp [exec, execScan, scanCommand, h1]⟩
  · by_cases h2 : s.cap.toNat ≤ n + 1
    · exact .inr (.inl ⟨by omega, by simp [exec, execScan, scanCommand, h1, h2]⟩)
    · exact .inr (.inr ⟨by omega, exec_scan_run (by omega)⟩)

theorem exec_scanNoOut_cases (s : State) (n : Nat) :
    (s.cap.toNat ≤ n ∧ exec (.scanNoOut n) s = .next (s.raiseStatus codeStartTooHigh).closeCommand) ∨
    (n < s.cap.toNat ∧ exec (.scanNoOut n) s = .next (s.raiseStatus codeInvalidInput).closeCommand) := by
  by_cases h1 : s.cap.toNat ≤ n
  · exact .inl ⟨h1, by simp [exec, execScanNoOut, scanCommand, h1]⟩
  · exact .inr ⟨by omega, by simp [exec, execScanNoOut, scanCommand, h1]⟩

theorem exec_cfg_cases (s : State) (n : Nat) :
    (255 < n ∧ exec (.cfg n) s = .next (s.raiseStatus codeInvalidInput).closeCommand) ∨
    (n ≤ 255 ∧ exec (.cfg n) s = .next ((s.setCap (BitVec.ofNat 8 n)).finish codeOk).closeCommand) := by
  by_cases h1 : 255 < n
  · exact .inl ⟨h1, by simp [exec, execCfg, h1]⟩
  · exact .inr ⟨by omega, by simp [exec, execCfg, h1]⟩

/-- A word written to CMD runs the command it decodes to, or is answered as reserved (R79). -/
theorem issueCommand_cases (w : Word) (s : State) :
    (∃ i, decode w = .ok i ∧ issueCommand w s = exec i s) ∨
    (∃ e, decode w = .error e ∧ issueCommand w s = .next (s.raiseStatus codeFailedOp).closeCommand) := by
  cases h : decode w with
  | ok i => exact .inl ⟨i, rfl, by simp [issueCommand, h]⟩
  | error e => exact .inr ⟨e, rfl, by simp [issueCommand, answerReserved, h]⟩

end Sys2Proof.Machine
end

