-- ==== Sys2Proof/Laws/Geometry.lean ====
section
/-! SUPPORT. The pure functions of the scan depend on the four variant parameters alone, of all that Config
holds (R113). -/

namespace Sys2Proof.Machine

theorem collidable_congr {c c' : Config} (h : c.requireAlive = c'.requireAlive) (r : Record) :
    collidable c r = collidable c' r := by
  simp only [collidable, h]

theorem overlaps_congr {c c' : Config} (hb : c.extentBias = c'.extentBias) (ht : c.touch = c'.touch)
    (hw : c.extentWrap = c'.extentWrap) (a b : Record) : overlaps c a b = overlaps c' a b := by
  obtain ⟨⟩ := c
  obtain ⟨⟩ := c'
  obtain rfl := hb
  obtain rfl := ht
  obtain rfl := hw
  rfl

end Sys2Proof.Machine
end

