-- ==== Sys2Proof/Laws/Operands.lean ====
section
/-! SUPPORT. The fields of a packed record (R52) and of an encoded pair (R108) read back. -/

namespace Sys2Proof.Machine

/-- Which field a bit of a packed record comes from (R52). -/
theorem getLsbD_packRecord (x y vel flags anim : BitVec 8) (i : Nat) :
    (packRecord x y vel flags anim).getLsbD i =
      if i < 8 then x.getLsbD i
      else if i - 8 < 8 then y.getLsbD (i - 8)
      else if i - 8 - 8 < 8 then vel.getLsbD (i - 8 - 8)
      else if i - 8 - 8 - 8 < 8 then flags.getLsbD (i - 8 - 8 - 8)
      else anim.getLsbD (i - 8 - 8 - 8 - 8) := by
  unfold packRecord
  refine (BitVec.getLsbD_append (x := anim ++ flags ++ vel ++ y) (y := x)).trans ?_
  simp only [BitVec.getLsbD_append]

theorem packRecord_fields (x y vel flags anim : BitVec 8) :
    recX (packRecord x y vel flags anim) = x ∧ recY (packRecord x y vel flags anim) = y ∧
      recVel (packRecord x y vel flags anim) = vel ∧ recFlags (packRecord x y vel flags anim) = flags ∧
      recAnim (packRecord x y vel flags anim) = anim := by
  refine ⟨?_, ?_, ?_, ?_, ?_⟩ <;> apply BitVec.eq_of_getLsbD_eq <;> intro i hi <;>
    simp only [recX, recY, recVel, recFlags, recAnim, BitVec.getLsbD_extractLsb', getLsbD_packRecord, hi,
      decide_true, Bool.true_and, Nat.zero_add, if_true]
  all_goals (repeat' split) <;> first | (exfalso; omega) | skip
  all_goals congr 1; omega

@[simp] theorem recX_packRecord (x y vel flags anim : BitVec 8) :
    recX (packRecord x y vel flags anim) = x := (packRecord_fields x y vel flags anim).1

@[simp] theorem recY_packRecord (x y vel flags anim : BitVec 8) :
    recY (packRecord x y vel flags anim) = y := (packRecord_fields x y vel flags anim).2.1

@[simp] theorem recVel_packRecord (x y vel flags anim : BitVec 8) :
    recVel (packRecord x y vel flags anim) = vel := (packRecord_fields x y vel flags anim).2.2.1

@[simp] theorem recFlags_packRecord (x y vel flags anim : BitVec 8) :
    recFlags (packRecord x y vel flags anim) = flags := (packRecord_fields x y vel flags anim).2.2.2.1

@[simp] theorem recAnim_packRecord (x y vel flags anim : BitVec 8) :
    recAnim (packRecord x y vel flags anim) = anim := (packRecord_fields x y vel flags anim).2.2.2.2

/-- The shift and the OR lose no bit (R108). -/
theorem toNat_encodePair (i j : BitVec 8) : (encodePair i j).toNat = i.toNat * 256 + j.toNat := by
  have hj := j.isLt
  have hi := i.isLt
  have h1 : (i.setWidth 16 <<< 8).toNat = i.toNat <<< 8 := by
    rw [BitVec.toNat_shiftLeft, BitVec.toNat_setWidth, Nat.shiftLeft_eq, Nat.shiftLeft_eq]; omega
  have h2 : (j.setWidth 16).toNat = j.toNat := by rw [BitVec.toNat_setWidth]; omega
  rw [encodePair, BitVec.toNat_or, h1, h2, ← Nat.shiftLeft_add_eq_or_of_lt hj, Nat.shiftLeft_eq]

@[simp] theorem resultI_encodePair (i j : BitVec 8) : resultI (encodePair i j) = i := by
  apply BitVec.eq_of_toNat_eq
  have := j.isLt
  have := i.isLt
  simp [resultI, toNat_encodePair, Nat.shiftRight_eq_div_pow]; omega

@[simp] theorem resultJ_encodePair (i j : BitVec 8) : resultJ (encodePair i j) = j := by
  apply BitVec.eq_of_toNat_eq
  have := j.isLt
  have := i.isLt
  simp [resultJ, toNat_encodePair]; omega

theorem encodePair_inj {i j a b : BitVec 8} (h : encodePair i j = encodePair a b) : i = a ∧ j = b :=
  ⟨by rw [← resultI_encodePair i j, h, resultI_encodePair],
    by rw [← resultJ_encodePair i j, h, resultJ_encodePair]⟩

end Sys2Proof.Machine
end

