-- ==== Sys2Proof/Laws/PerInstr.lean ====
section
/-! SUPPORT. Facts about every command as syntax, one lemma per constructor. -/

namespace Sys2Proof.Laws

/-- A command's word has its row's fixed bits (R73), and OPND is its operand's low 16 bits (R72). -/
def EncodeRow.Statement (i : Instr) : Prop :=
  i.row.selects (encode i) = true ∧ opndField (encode i) = BitVec.ofNat 16 i.operand

theorem rowBits_packWord (op : BitVec 4) (o : BitVec 1) (n : Nat) :
    packWord op o n &&& 0xFFFF0000#32 = packWord op o 0 := by
  apply BitVec.eq_of_getLsbD_eq
  intro i hi
  have hm : ∀ i < 32, (0xFFFF0000#32).getLsbD i = decide (16 ≤ i) := by decide
  simp only [BitVec.getLsbD_and, getLsbD_packWord, hm i hi]
  by_cases h : i < 16
  · simp [h, Nat.not_le.2 h]
  · simp [h, Nat.not_lt.1 h]

theorem EncodeRow.cfg (n : Nat) : EncodeRow.Statement (.cfg n) := by
  refine ⟨?_, by simp [encode, Instr.operand]⟩
  simp only [Instr.row, OpRow.selects, encode, rowBits_packWord]; decide

theorem EncodeRow.scan (start : Nat) : EncodeRow.Statement (.scan start) := by
  refine ⟨?_, by simp [encode, Instr.operand]⟩
  simp only [Instr.row, OpRow.selects, encode, rowBits_packWord]; decide

theorem EncodeRow.scanNoOut (start : Nat) : EncodeRow.Statement (.scanNoOut start) := by
  refine ⟨?_, by simp [encode, Instr.operand]⟩
  simp only [Instr.row, OpRow.selects, encode, rowBits_packWord]; decide

end Sys2Proof.Laws
end

