-- ==== Sys2Proof/Tests/Slice0.lean ====
section
/-! SUPPORT. The model's own tests. Expected results are those of 95_test_vectors.md (named V<n>) or are
worked out by hand from the rule named; none is the model's own answer. The second half shows, for each
obligation that has hypotheses, a concrete state and operands that meet them together. -/

namespace Sys2Proof.Tests

open Sys2Proof Sys2Proof.Machine

/-! Helpers. -/

/-- A record as 95_test_vectors.md writes it: velocity and animation 0. -/
def spr (x y flags : BitVec 8) : Record := packRecord x y 0 flags 0

/-- Records written from index `k` on, in the platform's layout. -/
def fill (c : Config) (m : Memory) (k : Nat) : List Record → Memory
  | [] => m
  | r :: rs => fill c (writeRecord m c k r) (k + 1) rs

/-- A block on a platform `c` bound to these records, RESULT holding 0x0ABC. -/
def boundOn (c : Config) (rs : List Record) : State :=
  { State.reset with cap := BitVec.ofNat 8 rs.length, result := 0x0ABC, storage := fill c [] 0 rs, cfg := c }

/-- The same with the default parameters. -/
def bound (rs : List Record) : State := boundOn Config.default rs

/-- The setup of V1. -/
def v1 : State := bound [0, spr 10 10 0x05, spr 10 10 0x05, 0]

/-- What a host can see of an outcome, and the reads taken. -/
def seen : Host.Outcome State Fault Refusal → Option (BitVec 8 × BitVec 16 × BitVec 8 × Nat)
  | .next t => some (t.status, t.result, t.cap, t.reads)
  | .fault _ => none
  | .refused _ => none

/-- The word written to CMD as the next step. -/
def cmd (s : State) (w : Nat) : Option (BitVec 8 × BitVec 16 × BitVec 8 × Nat) :=
  seen (step (s.withFetchWord 32 w))

/-! Well-formedness (R77): each ill-formed command is refused, the largest operand accepted. -/

theorem test_cfg_operand : ¬ (Instr.cfg 0x10000).WellFormed ∧ (Instr.cfg 0xFFFF).WellFormed := by decide

theorem test_scan_operand : ¬ (Instr.scan 0x10000).WellFormed ∧ (Instr.scan 0xFFFF).WellFormed := by decide

theorem test_scanNoOut_operand :
    ¬ (Instr.scanNoOut 0x10000).WellFormed ∧ (Instr.scanNoOut 0xFFFF).WellFormed := by decide

/-! Decoding: words written field by field, OP, OUTV, RSV, OPND (R71, R73). -/

theorem test_decode_cfg : decode 0b0001_0_00000000000_1000000000000001#32 = .ok (.cfg 0x8001) := by decide

theorem test_decode_scan : decode 0b0010_1_00000000000_1000000000000001#32 = .ok (.scan 0x8001) := by decide

theorem test_decode_scanNoOut :
    decode 0b0010_0_00000000000_1000000000000001#32 = .ok (.scanNoOut 0x8001) := by decide

/-- Each end of RSV and each bit beside the rows' own (R74). -/
theorem test_decode_reserved :
    decode 0b0001_0_00000000001_0000000000000100#32 = .error .cfgRsv ∧
      decode 0b0001_0_10000000000_0000000000000100#32 = .error .cfgRsv ∧
      decode 0b0001_1_00000000000_0000000000000100#32 = .error .cfgOutv ∧
      decode 0b0010_1_00000000001_0000000000000000#32 = .error .scanRsv ∧
      decode 0b0010_0_10000000000_0000000000000000#32 = .error .scanRsv ∧
      decode 0b0011_1_00000000000_0000000000000000#32 = .error (.opcode 0x3) ∧
      decode 0b1010_1_00000000000_0000000000000000#32 = .error (.opcode 0xA) := by decide

/-- The encodings of R77 at each end of the operand's range. -/
theorem test_encode :
    encode (.cfg 0) = 0x10000000#32 ∧ encode (.scan 0xFFFF) = 0x2800FFFF#32 ∧
      encode (.scanNoOut 4) = 0x20000004#32 ∧ encode Instr.scanAll = 0x28000000#32 := by decide

theorem test_decodeTableWord :
    decodeTableWord 32 0x10000000 = some (.cfg 0) ∧ decodeTableWord 32 0x28000000 = some (.scan 0) ∧
      decodeTableWord 32 0x20000000 = some (.scanNoOut 0) ∧ decodeTableWord 32 0 = none := by decide

/-! The commands. -/

/-- V51 and V52. -/
theorem test_cfg :
    cmd State.reset 0x100000FF = some (0x00, 0x0000, 255, 0) ∧
      cmd v1 0x10000100 = some (0x01, 0x0ABC, 4, 0) := by decide

/-- V1, with its count of reads. -/
theorem test_scan_hit : cmd v1 0x28000000 = some (0x10, 0x0102, 4, 3) := by decide

/-- V40: the smaller i before the smaller j; and V33: the start is not truncated. -/
theorem test_scan_order :
    cmd (bound [spr 10 10 0x05, spr 50 50 0x05, spr 50 50 0x05, spr 10 10 0x05]) 0x28000000 =
        some (0x10, 0x0003, 4, 4) ∧
      cmd v1 0x28000100 = some (0x03, 0x0ABC, 4, 0) := by decide

/-- V34 and V35. -/
theorem test_scanNoOut :
    cmd v1 0x20000000 = some (0x01, 0x0ABC, 4, 0) ∧ cmd v1 0x20000004 = some (0x03, 0x0ABC, 4, 0) := by decide

/-- V60, V61, V62, V63, and V65: decode comes first. -/
theorem test_reserved :
    ([0x00000000, 0x18000004, 0x10010004, 0x28010000, 0x2FFF0000].map (cmd v1) =
        List.replicate 5 (some (0x40, 0x0ABC, 4, 0))) ∧
      cmd State.reset 0x00000000 = some (0x40, 0x0000, 0, 0) := by decide

/-! The pure functions of the scan. -/

/-- The table of Collidable, at the default and with P_REQUIRE_ALIVE (section 2.1). -/
theorem test_collidable :
    ([0x01, 0x04, 0x00, 0xFE, 0xFF, 0x05].map fun f => collidable Config.default (spr 0 0 f)) =
        [true, false, false, false, true, true] ∧
      ([0x01, 0x04, 0x00, 0xFE, 0xFF, 0x05].map fun f =>
        collidable { Config.default with requireAlive := true } (spr 0 0 f)) =
        [false, false, false, false, true, true] := by decide

/-- The table of extents, at each bias (section 2.2). -/
theorem test_box :
    ([0x05, 0x31, 0x61, 0xF1].map fun f =>
        ((boxOf Config.default (spr 0 0 f)).w, (boxOf Config.default (spr 0 0 f)).h)) =
        [(1, 1), (4, 1), (3, 2), (4, 4)] ∧
      ([0x05, 0x31, 0x61, 0xF1].map fun f =>
        ((boxOf { Config.default with extentBias := .two } (spr 0 0 f)).w,
          (boxOf { Config.default with extentBias := .two } (spr 0 0 f)).h)) =
        [(2, 2), (5, 2), (4, 3), (5, 5)] := by decide

/-- The pairs V11, V13, V15, V16, V16b, V17, V18a, V18b and V20 (section 2.3). -/
def pairs : List (Record × Record) :=
  [ (spr 10 10 0x05, spr 11 10 0x05), (spr 0 0 0x05, spr 0 5 0x05), (spr 0 0 0xF5, spr 4 0 0x05),
    (spr 254 0 0x35, spr 255 0 0x05), (spr 254 0 0x35, spr 1 0 0x05), (spr 255 0 0x05, spr 255 0 0x05),
    (spr 0 250 0xC5, spr 0 253 0x05), (spr 0 250 0xC5, spr 0 254 0x05), (spr 0 0 0x05, spr 1 1 0x05) ]

theorem test_overlap_default : (pairs.map fun p => overlaps Config.default p.1 p.2) =
    [false, false, false, true, false, true, true, false, false] := by decide

theorem test_overlap_inclusive :
    (pairs.map fun p => overlaps { Config.default with touch := .inclusive } p.1 p.2) =
    [true, false, true, true, false, true, true, true, true] := by decide

theorem test_overlap_bias : (pairs.map fun p => overlaps { Config.default with extentBias := .two } p.1 p.2) =
    [true, false, true, true, false, true, true, true, true] := by decide

theorem test_overlap_wrap8 : (pairs.map fun p => overlaps { Config.default with extentWrap := .wrap8 } p.1 p.2) =
    [false, false, false, false, false, false, true, false, false] := by decide

/-! The port. -/

/-- The word a register read gets back. -/
def readBack (s : State) (off : Nat) : Option Word :=
  match step { s with host := [.read (s.cfg.regBase + off) 4] } with
  | .next t => some t.rdata
  | .fault _ => none
  | .refused _ => none

/-- V71, V70, V72 and V74: what each register reads as, and that a write to CAPACITY is ignored. -/
theorem test_registers :
    readBack v1 0x0 = some 0 ∧ readBack State.reset 0x4 = some 0 ∧ readBack v1 0xC = some 4 ∧
      readBack { v1 with status := 0x10 } 0x4 = some 0x10 ∧ readBack v1 0x8 = some 0x0ABC ∧
      seen (step { v1 with host := [.write (v1.cfg.regBase + 0xC) 4 0xFF Overlap.quiet] }) =
        some (0x00, 0x0ABC, 4, 0) := by decide

/-- R56: half a word, and a word at an odd offset. -/
theorem test_port_refuses :
    step { v1 with host := [.read v1.cfg.regBase 2] } = .refused .registerAccessUndefined ∧
      step { v1 with host := [.read (v1.cfg.regBase + 2) 4] } = .refused .registerAccessUndefined := by
  exact ⟨rfl, rfl⟩

/-- R53: the low byte of `address`, x, stands at the lowest address of the record. -/
theorem test_record_bytes :
    writeRecord [] Config.default 1 (packRecord 0x11 0x22 0x33 0x44 0x55) =
      [(21, 0x11), (22, 0x22), (23, 0x33), (24, 0x44), (25, 0x55)] := by decide

/-- U12: four records kept field by field, each record's fields four bytes apart. -/
def planar : Config :=
  { Config.default with layout := .table [0, 4, 8, 12, 16, 1, 5, 9, 13, 17, 2, 6, 10, 14, 18, 3, 7, 11, 15, 19] }

/-- U12: record 1's fields lie apart in this layout, and V1 gives what it gives in R53's. -/
theorem test_other_layout :
    writeRecord [] planar 1 (packRecord 0x11 0x22 0x33 0x44 0x55) =
        [(17, 0x11), (21, 0x22), (25, 0x33), (29, 0x44), (33, 0x55)] ∧
      cmd (boundOn planar [0, spr 10 10 0x05, spr 10 10 0x05, 0]) 0x28000000 = some (0x10, 0x0102, 4, 3) := by
  decide

/-- R154: a scan over a record nothing has written faults. -/
theorem test_unwritten :
    step (State.withFetchWord { State.reset with cap := 2 } 32 0x28000000) = .fault (.unwrittenRecord 0) := by
  rfl

/-- R151: a scan that would have found its pair reports nothing once reset arrives, here after OUTER, NEXT_I
and OUTER, two of which read. -/
theorem test_reset_during :
    seen (exec (.scan 0) { v1 with overlap := ⟨[], .resetAfter 3⟩ }) = some (0x00, 0x0000, 0, 2) := by decide

/-! Witnesses: for each obligation with hypotheses, a state and operands that meet them. -/

/-- What sprite memory holds in `v1`. -/
def v1mem (k : Nat) : Record := if k = 1 ∨ k = 2 then spr 10 10 0x05 else 0

theorem v1_agrees : memAgrees v1 v1mem 0 4 := by
  intro k _ hk
  have h : ∀ k < 4, recordAt v1 k = some (v1mem k) := by decide
  exact h k hk

/-- A block whose four records do not take part. -/
def empty4 : State := bound [0, 0, 0, 0]

theorem empty4_agrees : memAgrees empty4 (fun _ => 0) 0 4 := by
  intro k _ hk
  have h : ∀ k < 4, recordAt empty4 k = some (0 : Record) := by decide
  exact h k hk

theorem witness_DecodeOfEncode :
    (Instr.cfg 0xFFFF).WellFormed ∧ (Instr.scan 0).WellFormed ∧ (Instr.scanNoOut 0xFFFF).WellFormed := by decide

theorem witness_EncodeOfDecode : decode 0x2800FFFF#32 = .ok (.scan 0xFFFF) := by decide

theorem witness_DecodeFollowsOpcodeMap :
    decode 0x10000000#32 = .ok (.cfg 0) ∧ decode 0x10010000#32 = .error .cfgRsv := by decide

theorem witness_EncodeIsTheAssemblersWord : 0xFFFF ≤ 0xFFFF := by decide

/-- One word of each class of R74, at the ends of each. -/
theorem witness_ReservedWordFailsAlone :
    (reservedWord 0x00000000#32 ∧ reservedWord 0x30000000#32 ∧ reservedWord 0xF0000000#32 ∧
      reservedWord 0x18000000#32 ∧ reservedWord 0x10010000#32 ∧ reservedWord 0x14000000#32 ∧
      reservedWord 0x20010000#32 ∧ reservedWord 0x2FFF0000#32) ∧ v1.overlap = Overlap.quiet := by
  unfold reservedWord
  refine ⟨⟨?_, ?_, ?_, ?_, ?_, ?_, ?_, ?_⟩, rfl⟩ <;> decide

theorem witness_CfgResult : v1.overlap = Overlap.quiet ∧ 255 ≤ 255 ∧ 255 < 256 := by decide

theorem witness_CapacityWrittenOnlyByCfg :
    (∀ n, v1.overlap.disturbance ≠ .resetAfter n) ∧ ∃ t, exec (.cfg 255) v1 = .next t ∧ t.cap ≠ v1.cap :=
  ⟨by simp [v1, bound, boundOn, State.reset], _, rfl, by decide⟩

theorem witness_ScanStartTooHighFails : v1.overlap = Overlap.quiet ∧ v1.cap.toNat ≤ 4 := by decide

/-- Both outcomes of SCAN.NOOUT, where they meet. -/
theorem witness_ScanNoOutResult :
    v1.overlap = Overlap.quiet ∧ v1.cap.toNat ≤ 4 ∧ ¬ v1.cap.toNat ≤ 3 := by decide

theorem witness_ScanFromLastIndexIsEmpty : v1.overlap = Overlap.quiet ∧ 3 + 1 = v1.cap.toNat := by decide

/-- One word for each clause; 0x20000004 and 0x20000003 stand where two of them meet. -/
theorem witness_ReportedCodeFollowsPriority :
    v1.overlap = Overlap.quiet ∧ reservedWord 0x20010004#32 ∧
      (¬ reservedWord 0x20000004#32 ∧ opField 0x20000004#32 = 0x2#4 ∧
        v1.cap.toNat ≤ (opndField 0x20000004#32).toNat) ∧
      (¬ reservedWord 0x20000003#32 ∧ opField 0x20000003#32 = 0x2#4 ∧
        (opndField 0x20000003#32).toNat < v1.cap.toNat ∧ outvField 0x20000003#32 = false) ∧
      (¬ reservedWord 0x10000100#32 ∧ opField 0x10000100#32 = 0x1#4 ∧
        255 < (opndField 0x10000100#32).toNat) := by
  unfold reservedWord; decide

theorem witness_ScanBeforeCfgFails :
    State.reset.cap = 0 ∧ State.reset.overlap = Overlap.quiet ∧ 0 ≤ 0xFFFF := by decide

theorem witness_BoxesApartOnOneAxis :
    Config.default.extentWrap = .wide ∧ Config.default.touch = .exclusive ∧
      ({ Config.default with touch := .inclusive } : Config).extentWrap = .wide := by decide

theorem witness_WideExclusiveOverlapIsASharedCell :
    Config.default.extentWrap = .wide ∧ Config.default.touch = .exclusive := by decide

/-- The least end that wraps, 255 + 1. -/
theorem witness_WrappedBoxOverlapsNothing :
    ({ Config.default with extentWrap := .wrap8 } : Config).extentWrap = .wrap8 ∧ 255 < 256 ∧ 1 ≤ 1 ∧ 1 ≤ 5 ∧
      256 ≤ 255 + 1 := by decide

theorem witness_SelfOverlap :
    Config.default.extentWrap = .wide ∧
      ({ Config.default with extentWrap := .wrap8 } : Config).extentWrap = .wrap8 := by decide

/-- The candidate pair of V1. -/
theorem witness_FirstHitIsTheLeastPair :
    candidate Config.default v1mem 0 4 1 2 ∧ ¬ candidate Config.default v1mem 0 4 0 1 := by
  unfold candidate; decide

/-- Also for ScanStopsAtTheFirstHit: V1, whose first hit is (1, 2), and a memory with none. -/
theorem witness_ScanReportsFirstHit :
    (v1.phase = .idle ∧ v1.overlap = Overlap.quiet ∧ 0 < v1.cap.toNat ∧ memAgrees v1 v1mem 0 v1.cap.toNat ∧
      firstHit v1.cfg v1mem 0 v1.cap.toNat = some (1, 2)) ∧
    (empty4.phase = .idle ∧ empty4.overlap = Overlap.quiet ∧ 0 < empty4.cap.toNat ∧
      memAgrees empty4 (fun _ => 0) 0 empty4.cap.toNat ∧
      firstHit empty4.cfg (fun _ => 0) 0 empty4.cap.toNat = none) :=
  ⟨⟨rfl, rfl, by decide, v1_agrees, by decide⟩, rfl, rfl, by decide, empty4_agrees, by decide⟩

theorem witness_ScanWithoutAPairIsOk :
    empty4.phase = .idle ∧ empty4.overlap = Overlap.quiet ∧ 0 < empty4.cap.toNat ∧
      memAgrees empty4 (fun _ => 0) 0 empty4.cap.toNat ∧
      ∀ i j, ¬ candidate empty4.cfg (fun _ => 0) 0 empty4.cap.toNat i j :=
  ⟨rfl, rfl, by decide, empty4_agrees, fun _ _ h =>
    absurd (show collidable empty4.cfg (0 : Record) = true from h.2.2.2.1) (by decide)⟩

theorem witness_HitNamesALegalPair : ∃ t, exec (.scan 0) v1 = .next t ∧ t.status = 0x10 :=
  ⟨_, rfl, by decide⟩

/-- In `empty4` no index takes part, so at most index 0 does. -/
theorem witness_ScanOfOneCollidableIsOk :
    empty4.phase = .idle ∧ empty4.overlap = Overlap.quiet ∧ 0 < empty4.cap.toNat ∧
      memAgrees empty4 (fun _ => 0) 0 empty4.cap.toNat ∧
      ∀ k', 0 ≤ k' → k' < empty4.cap.toNat → collidable empty4.cfg 0 = true → k' = 0 :=
  ⟨rfl, rfl, by decide, empty4_agrees, fun _ _ _ h => absurd h (by decide)⟩

/-- Four records below the capacity, of which only the first two are written. -/
def half : State := { bound [spr 10 10 0x05, spr 10 10 0x05] with cap := 4 }

theorem witness_RecordsPastTheHitAreNotNeeded :
    half.overlap = Overlap.quiet ∧ 0 < 1 ∧ 1 < half.cap.toNat ∧
      memAgrees half (fun _ => spr 10 10 0x05) 0 (1 + 1) ∧ recordAt half 2 = none ∧
      collidable half.cfg (spr 10 10 0x05) = true ∧
      overlaps half.cfg (spr 10 10 0x05) (spr 10 10 0x05) = true ∧
      ∀ k, 0 < k → k < 1 →
        (collidable half.cfg (spr 10 10 0x05) &&
          overlaps half.cfg (spr 10 10 0x05) (spr 10 10 0x05)) = false := by
  refine ⟨rfl, by decide, by decide, ?_, by decide, by decide, by decide, fun k h h' => by omega⟩
  intro k _ hk
  have h : ∀ k < 2, recordAt half k = some (spr 10 10 0x05) := by decide
  exact h k hk

theorem witness_ScanReadsAreBounded : 0 < v1.cap.toNat ∧ ∃ t, exec (.scan 0) v1 = .next t :=
  ⟨by decide, _, rfl⟩

/-- `v1` with another agent's write of record 2 overlapping the command. -/
def disturbed : State := { v1 with overlap := ⟨[(2, 0)], .none⟩ }

theorem disturbed_written : recordsWritten disturbed 0 disturbed.cap.toNat := by decide

theorem witness_ScanCompletesUnderOverlappingWrites :
    disturbed.phase = .idle ∧ disturbed.overlap.disturbance = .none ∧ 0 < disturbed.cap.toNat ∧
      recordsWritten disturbed 0 disturbed.cap.toNat := ⟨rfl, rfl, by decide, disturbed_written⟩

/-- `v1` with another record below the start and another velocity and animation in record 1. -/
def v1twin : State := bound [spr 10 10 0x05, packRecord 10 10 7 0x0F 9, spr 10 10 0x05, 0]

def v1twinMem (k : Nat) : Record :=
  if k = 1 then packRecord 10 10 7 0x0F 9 else if k = 3 then 0 else spr 10 10 0x05

theorem v1twin_agrees : memAgrees v1twin v1twinMem 1 4 := by
  intro k _ hk
  have h : ∀ k < 4, recordAt v1twin k = some (v1twinMem k) := by decide
  exact h k hk

theorem witness_ScanDependsOnlyOnWhatItReads :
    v1.phase = .idle ∧ v1twin.phase = .idle ∧ v1.overlap = Overlap.quiet ∧ v1twin.overlap = Overlap.quiet ∧
      v1.cap = v1twin.cap ∧ 1 < v1.cap.toNat ∧ v1.cfg = v1twin.cfg ∧ memAgrees v1 v1mem 1 v1.cap.toNat ∧
      memAgrees v1twin v1twinMem 1 v1twin.cap.toNat ∧
      ∀ k, 1 ≤ k → k < v1.cap.toNat → sameForScan v1.cfg (v1mem k) (v1twinMem k) := by
  refine ⟨rfl, rfl, rfl, rfl, rfl, by decide, rfl, fun k _ h => v1_agrees k (Nat.zero_le k) h, v1twin_agrees, ?_⟩
  intro k hk hk'
  have h : ∀ k < 4, 1 ≤ k → sameForScan v1.cfg (v1mem k) (v1twinMem k) := by unfold sameForScan; decide
  exact h k hk' hk

theorem witness_VelocityAndAnimationNeverMatter :
    v1.phase = .idle ∧ v1.overlap = Overlap.quiet ∧ v1.cfg.layout.ok = true ∧
      recordsWritten v1 0 v1.cap.toNat ∧ recordAt v1 1 = some (spr 10 10 0x05) ∧
      recX (packRecord 10 10 7 0x05 9) = recX (spr 10 10 0x05) ∧
      recY (packRecord 10 10 7 0x05 9) = recY (spr 10 10 0x05) ∧
      recFlags (packRecord 10 10 7 0x05 9) = recFlags (spr 10 10 0x05) := by decide

/-- Two states with the same registers and storage and nothing else in common. -/
theorem witness_AnswerIsAFunctionOfRegistersAndMemory :
    let u : State := { v1 with fresh := 7, curI := 3, host := [.reset], rdata := 5 }
    v1.phase = .idle ∧ u.phase = .idle ∧ v1.overlap = Overlap.quiet ∧ u.overlap = Overlap.quiet ∧
      v1.status = u.status ∧ v1.result = u.result ∧ v1.cap = u.cap ∧ v1.cfg = u.cfg ∧
      v1.storage = u.storage ∧ u ≠ v1 := by decide

/-- The records of V1 in R53's layout and kept field by field: the storages differ, the words do not. -/
theorem witness_LayoutNeverMattersToCommands :
    let u : State := boundOn planar [0, spr 10 10 0x05, spr 10 10 0x05, 0]
    v1.phase = .idle ∧ u.phase = .idle ∧ v1.overlap = Overlap.quiet ∧ u.overlap = Overlap.quiet ∧
      v1.status = u.status ∧ v1.result = u.result ∧ v1.cap = u.cap ∧
      v1.cfg.extentBias = u.cfg.extentBias ∧ v1.cfg.touch = u.cfg.touch ∧
      v1.cfg.extentWrap = u.cfg.extentWrap ∧ v1.cfg.requireAlive = u.cfg.requireAlive ∧
      (∀ k, k < v1.cap.toNat → recordAt v1 k = recordAt u k) ∧ v1.storage ≠ u.storage := by
  decide

theorem witness_ReinvocationMissesPairs :
    ∃ t, exec (.scan (0 + 1)) v1 = .next t ∧ t.status = 0x10 ∧ (0 : BitVec 8).toNat ≤ 0 :=
  ⟨_, rfl, by decide, by decide⟩

theorem witness_ResultWrittenOnlyOnAHit :
    (∀ n, v1.overlap.disturbance ≠ .resetAfter n) ∧ ∃ t, exec (.scan 0) v1 = .next t ∧ t.result ≠ v1.result :=
  ⟨by simp [v1, bound, boundOn, State.reset], _, rfl, by decide⟩

/-- The cursor at the start of a scan of two records, and in the last INNER step of one: CUR_I = CAP-2 and
CUR_J = CAP-1. -/
theorem witness_CursorStaysInBounds :
    let s : State := { v1 with phase := .scanning, label := .inner, curI := 2, curJ := 3 }
    2 + 1 < v1.cap.toNat ∧ s.phase = .scanning ∧ SeqInv s ∧ ∃ t, seqStep s = .next t :=
  ⟨by decide, rfl, by unfold SeqInv; decide, _, rfl⟩

/-- Each of the two faults a command can end in. -/
theorem witness_CommandsStopOnlyAtTheirReads :
    exec (.scan 0) { half with storage := [] } = .fault (.unwrittenRecord 0) ∧
      exec (.scan 0) { v1 with overlap := ⟨[], .portSilentAfter 2⟩ } = .fault .spritePortSilent :=
  ⟨rfl, rfl⟩

theorem witness_SprReadReturnsTheRecord :
    v1.overlap = Overlap.quiet ∧ (3 : BitVec 8) < v1.cap ∧ recordAt v1 3 = some 0 := by decide

theorem witness_UnwrittenRecordFaults :
    half.overlap = Overlap.quiet ∧ 2 + 1 < half.cap.toNat ∧ recordAt half 2 = none := by decide

theorem witness_SilentPortHangsTheScan :
    let s : State := { v1 with overlap := ⟨[], .portSilentAfter 0⟩ }
    s.overlap.disturbance = .portSilentAfter 0 ∧ 2 + 1 < s.cap.toNat := by decide

/-- A read of the record another agent writes, on either kind of storage. -/
theorem witness_OverlappedReadIsADraw :
    (∃ r t, sprRead disturbed 2 = .ok (r, t) ∧ disturbed.cfg.tearing = false) ∧
    (let s : State := { disturbed with cfg := { Config.default with tearing := true } }
     ∃ r t, sprRead s 2 = .ok (r, t) ∧ s.cfg.tearing = true) := by
  have answered (s : State) (hc : s.cap = 4) (hd : s.overlap.disturbance = .none)
      (hr : (recordAt s 2).isSome = true) : ∃ r t, sprRead s 2 = .ok (r, t) := by
    cases h : portWord s (2 : BitVec 8).toNat with
    | none => rw [show recordAt s 2 = none from portWord_eq_none h] at hr; simp at hr
    | some r => exact ⟨r, s.countRead, sprRead_eq_ok (by rw [hc]; decide) (by simp [hd]) h⟩
  obtain ⟨r, t, h⟩ := answered disturbed rfl rfl (by decide)
  obtain ⟨r', t', h'⟩ := answered { disturbed with cfg := { Config.default with tearing := true } } rfl rfl
    (by decide)
  exact ⟨⟨r, t, h, rfl⟩, r', t', h', rfl⟩

theorem witness_CommandsLeaveMemoryAndHost : ∃ t, exec (.scan 0) v1 = .next t ∧ v1.overlap.writes = [] :=
  ⟨_, rfl, rfl⟩

theorem witness_ResetSetsTheRegisters :
    let s : State := { v1 with host := [.reset] }
    s.phase = .idle ∧ s.host = .reset :: [] := by decide

theorem witness_ResetAbandonsTheCommand :
    let s : State := { v1 with overlap := ⟨[], .resetAfter 3⟩ }
    s.overlap.disturbance = .resetAfter 3 ∧ recordsWritten s 0 s.cap.toNat ∧ ∃ t, exec (.scan 0) s = .next t :=
  ⟨rfl, by decide, _, rfl⟩

/-- Each clause's access as the host's next action. -/
theorem witness_RegisterMap :
    v1.phase = .idle ∧
      (∀ off ∈ [0x0, 0x4, 0x8, 0xC], ∃ s : State,
        s.phase = .idle ∧ s.host = [.read (s.cfg.regBase + off) 4]) ∧
      ∀ off ∈ [0x0, 0x4, 0x8, 0xC], ∃ s : State,
        s.phase = .idle ∧ s.host = [.write (s.cfg.regBase + off) 4 0 Overlap.quiet] :=
  ⟨rfl, fun off _ => ⟨{ v1 with host := [.read (v1.cfg.regBase + off) 4] }, rfl, rfl⟩,
    fun off _ => ⟨{ v1 with host := [.write (v1.cfg.regBase + off) 4 0 Overlap.quiet] }, rfl, rfl⟩⟩

/-- Both grounds, at the ends of the window. -/
theorem witness_OtherAccessesAreRefused :
    v1.phase = .idle ∧ inWindow v1.cfg v1.cfg.regBase ∧ inWindow v1.cfg (v1.cfg.regBase + 0xF) ∧ 2 ≠ 4 ∧
      (v1.cfg.regBase + 0xF - v1.cfg.regBase) % 4 ≠ 0 := by decide

/-- The addresses next to the window on either side. -/
theorem witness_AccessesOutsideTheWindowAreRefused :
    let c : Config := { Config.default with regBase := 16 }
    v1.phase = .idle ∧ 15 < c.regBase ∧ c.regBase + 0x10 ≤ 32 := by decide

theorem witness_OnlyUndefinedAccessesAreRefused :
    step { v1 with host := [.read v1.cfg.regBase 2] } = .refused .registerAccessUndefined := rfl

theorem witness_StepRunsTheDecodedCommand :
    let s : State := { v1 with host := [.write v1.cfg.regBase 4 0x28000000 Overlap.quiet] }
    decode 0x28000000#32 = .ok (.scan 0) ∧ s.phase = .idle ∧
      s.host = .write s.cfg.regBase 4 0x28000000 Overlap.quiet :: [] := by decide

theorem witness_HostIsHeldDuringACommand :
    (v1.enterScan 0).phase = .scanning ∧ ∃ t, step (v1.enterScan 0) = .next t := ⟨rfl, _, rfl⟩

/-- An idle host, and a host whose next action is a read. -/
theorem witness_IdleBlockHoldsItsRegisters :
    let s : State := { v1 with host := [.read v1.cfg.regBase 4] }
    (v1.phase = .idle ∧ ¬ commandOrReset v1 ∧ v1.host = []) ∧
      s.phase = .idle ∧ ¬ commandOrReset s ∧ ∃ t, step s = .next t := by
  refine ⟨⟨rfl, ?_, rfl⟩, rfl, ?_, _, rfl⟩
  · rintro ⟨a, rest, h, -⟩
    cases h
  · rintro ⟨a, rest, h, h' | ⟨w, o, h'⟩⟩ <;> rw [h'] at h <;> cases h

theorem witness_HostSpriteWriteIsSeen :
    let s : State := { v1 with host := [.spriteWrite 254 (spr 1 2 3)] }
    s.phase = .idle ∧ s.cfg.layout.ok = true ∧ s.host = .spriteWrite 254 (spr 1 2 3) :: [] := by decide

/-- A layout other than R53's that keeps records whole: each field in a halfword of its own. -/
def spread : Layout := .table ((List.range (5 * capMax)).map fun n => 2 * n)

theorem spread_ok : spread.ok = true := by
  have hn : ((List.range (5 * capMax)).map fun n => 2 * n).Nodup :=
    List.Nodup.map (fun a b (h : 2 * a = 2 * b) => by omega) List.nodup_range
  simp [spread, Layout.ok, hn]

/-- R53's layout, and another. -/
theorem witness_RecordBytesInStorage :
    Config.default.layout = .packed ∧ ({ Config.default with layout := spread } : Config).layout.ok = true :=
  ⟨rfl, spread_ok⟩

/-- Two orders of writing the same two bytes. -/
theorem witness_StorageFormIsUnique :
    let m : Memory := Memory.write (Memory.write [] 16 1) 20 2
    let m' : Memory := Memory.write (Memory.write [] 20 2) 16 1
    m.wf ∧ m'.wf ∧ ∀ a, Memory.read m a = Memory.read m' a := ⟨by decide, by decide, fun _ => rfl⟩

/-- V1 run as one step; also for StatusStaysAWrittenCode. -/
theorem witness_StepKeepsInv :
    let s : State := { v1 with result := 0, host := [commandWrite v1.cfg 0x28000000] }
    Inv s ∧ legalCode s.status ∧ ∃ t, step s = .next t :=
  ⟨⟨rfl, rfl, .inl rfl, .inl rfl, by decide, rfl, rfl⟩, .inl rfl, _, rfl⟩

theorem witness_DutifulHostIsAlwaysAnswered :
    let s : State := { v1 with result := 0, host := [commandWrite v1.cfg 0x28000000] }
    Inv s ∧ hostDuties s :=
  ⟨⟨rfl, rfl, .inl rfl, .inl rfl, by decide, rfl, rfl⟩, ⟨rfl, by decide, rfl⟩, fun _ => ⟨rfl, by decide⟩⟩

end Sys2Proof.Tests
end

/-! The statements of 10_state.md: what reset leaves, which command can write CAP and RESULT, where the
cursor stands during a scan, and that a scan reads neither velocity nor animation. -/

namespace Sys2Proof.Machine

/-! Reset (R33). -/

/-- Settles O42: reset gives the registers and the variant parameters the values the spec states. -/
theorem resetValues : Obligations.ResetValues := by
  unfold Obligations.ResetValues
  exact ⟨rfl, rfl, rfl, rfl, rfl, rfl, rfl, rfl⟩

/-- Settles O57: no command is in progress at reset, STATUS is OK, RESULT is 0 and storage is empty. -/
theorem resetHasInv : Obligations.ResetHasInv where
  idle := rfl
  quiet := rfl
  status := .inl rfl
  result := .inl rfl
  storage := List.Pairwise.nil
  cfg := ⟨rfl, rfl⟩

/-! What a command that no reset interrupts leaves in CAP, RESULT and STATUS (R25, R26). -/

/-- No reset arrives during the command. -/
abbrev Overlap.noReset (o : Overlap) : Prop := ∀ n, o.disturbance ≠ .resetAfter n

theorem SeqFrame.noReset {s t : State} (h : SeqFrame s t) (hs : s.overlap.noReset) : t.overlap.noReset := by
  intro n
  rcases h.disturbance with h1 | ⟨-, m, -, h1⟩
  · rw [h1]; exact hs n
  · simp [h1]

/-- A micro-step leaves RESULT, or reports a hit and goes IDLE (R110). -/
theorem seqStep_result {s t : State} (h : seqStep s = .next t) :
    t.result = s.result ∨ (t.phase = .idle ∧ t.status = codeCollisionDetected) := by
  rcases seqStep_next h with ⟨-, a, -, ⟨-, rfl⟩ | ⟨-, rfl⟩⟩ |
    ⟨-, b, -, ⟨-, rfl⟩ | ⟨-, ⟨-, rfl⟩ | ⟨-, rfl⟩⟩⟩ | ⟨-, ⟨-, rfl⟩ | ⟨-, rfl⟩⟩
  case inr.inl.inl => exact .inr ⟨rfl, rfl⟩
  all_goals exact .inl rfl

/-- A run leaves RESULT, or ends IDLE in the hit it reports: no micro-step follows a hit. -/
theorem runSeq_result {n : Nat} {s t : State} (h : runSeq n s = .next t) :
    t.result = s.result ∨ (t.phase = .idle ∧ t.status = codeCollisionDetected) := by
  refine (runSeq_invariant
    (P := fun u => u.result = s.result ∨ (u.phase = .idle ∧ u.status = codeCollisionDetected))
    (fun {u v} hp hu huv => ?_) (.inl rfl)).1 t h
  have hu : u.result = s.result := by simpa [hp] using hu
  simpa [hu] using seqStep_result huv

theorem closeCommand_registers {s : State} (h : s.overlap.noReset) :
    s.closeCommand.cap = s.cap ∧ s.closeCommand.result = s.result ∧ s.closeCommand.status = s.status := by
  rw [closeCommand_of_no_reset h]
  exact ⟨rfl, rfl, rfl⟩

theorem exec_scan_registers {s t : State} {n : Nat} (hs : s.overlap.noReset) (h : exec (.scan n) s = .next t) :
    t.cap = s.cap ∧ (t.result = s.result ∨ t.status = codeCollisionDetected) := by
  rcases exec_scan_cases s n with ⟨-, he⟩ | ⟨-, he⟩ | ⟨-, he⟩
  · obtain rfl := Host.Outcome.next.inj (he.symm.trans h)
    obtain ⟨hcap, hres, -⟩ := closeCommand_registers (s := s.raiseStatus codeStartTooHigh) hs
    exact ⟨hcap, .inl hres⟩
  · obtain rfl := Host.Outcome.next.inj (he.symm.trans h)
    obtain ⟨hcap, hres, -⟩ := closeCommand_registers (s := s.finish codeOk) hs
    exact ⟨hcap, .inl hres⟩
  · obtain ⟨u, hu, rfl⟩ := runScan_next (he.symm.trans h)
    have hf := runSeq_frame hu
    obtain ⟨hcap, hres, hst⟩ := closeCommand_registers (hf.noReset hs)
    rw [hcap, hres, hst]
    exact ⟨hf.cap, (runSeq_result hu).imp_right And.right⟩

theorem exec_scanNoOut_registers {s t : State} {n : Nat} (hs : s.overlap.noReset)
    (h : exec (.scanNoOut n) s = .next t) : t.cap = s.cap ∧ t.result = s.result := by
  have hclose (c : BitVec 8) := closeCommand_registers (s := s.raiseStatus c) hs
  rcases exec_scanNoOut_cases s n with ⟨-, he⟩ | ⟨-, he⟩
  all_goals
    obtain rfl := Host.Outcome.next.inj (he.symm.trans h)
    exact (hclose _).imp_right And.left

theorem exec_cfg_registers {s t : State} {n : Nat} (hs : s.overlap.noReset) (h : exec (.cfg n) s = .next t) :
    t.result = s.result ∧ (t.cap = s.cap ∨ n ≤ 255 ∧ t.cap = BitVec.ofNat 8 n ∧ t.status = codeOk) := by
  rcases exec_cfg_cases s n with ⟨-, he⟩ | ⟨hn, he⟩
  · obtain rfl := Host.Outcome.next.inj (he.symm.trans h)
    obtain ⟨hcap, hres, -⟩ := closeCommand_registers (s := s.raiseStatus codeInvalidInput) hs
    exact ⟨hres, .inl hcap⟩
  · obtain rfl := Host.Outcome.next.inj (he.symm.trans h)
    obtain ⟨hcap, hres, hst⟩ :=
      closeCommand_registers (s := (s.setCap (BitVec.ofNat 8 n)).finish codeOk) hs
    exact ⟨hres, .inr ⟨hn, hcap, hst⟩⟩

/-- Settles O8: of the three commands only a CFG of at most 255 has another CAP among its outcomes. -/
theorem capacityWrittenOnlyByCfg : Obligations.CapacityWrittenOnlyByCfg := by
  intro i s t hs h hne
  cases i with
  | cfg n => exact ⟨n, rfl, (exec_cfg_registers hs h).2.resolve_left hne⟩
  | scan n => exact absurd (exec_scan_registers hs h).1 hne
  | scanNoOut n => exact absurd (exec_scanNoOut_registers hs h).1 hne

/-- Settles O34: only the sequencer writes RESULT, in the micro-step that ends the scan with a hit. -/
theorem resultWrittenOnlyOnAHit : Obligations.ResultWrittenOnlyOnAHit := by
  intro i s t hs h hne
  cases i with
  | cfg n => exact absurd (exec_cfg_registers hs h).1 hne
  | scan n => exact ⟨(exec_scan_registers hs h).2.resolve_left hne, n, rfl⟩
  | scanNoOut n => exact absurd (exec_scanNoOut_registers hs h).2 hne

/-! The cursor during a scan (R21, R110). -/

theorem seqInv_enterScan {s : State} {n : Nat} (h : n + 1 < s.cap.toNat) :
    SeqInv (s.enterScan (BitVec.ofNat 8 n)) := by
  have hcap := s.cap.isLt
  have hn : (BitVec.ofNat 8 n).toNat = n := by rw [BitVec.toNat_ofNat]; omega
  intro _
  simp only [enterScan_curI, enterScan_cap, enterScan_label, hn]
  exact ⟨by omega, nofun⟩

/-- Every micro-step keeps the cursor within its bounds. INNER sets CUR_J to CUR_I + 1, or moves it on
where the sequencer has checked that it stays below CAP; NEXT_I moves CUR_I under the same check. -/
theorem seqStep_seqInv {s t : State} (hp : s.phase = .scanning) (hs : SeqInv s) (h : seqStep s = .next t) :
    SeqInv t := by
  obtain ⟨hi, hj⟩ := hs hp
  have hi1 : (s.curI + 1).toNat = s.curI.toNat + 1 :=
    toNat_add_one (c := s.cap) (by show s.curI.toNat < s.cap.toNat; omega)
  rcases seqStep_next h with ⟨-, a, -, ⟨-, rfl⟩ | ⟨-, rfl⟩⟩ |
    ⟨hl, b, -, ⟨-, rfl⟩ | ⟨-, ⟨hj1, rfl⟩ | ⟨-, rfl⟩⟩⟩ | ⟨-, ⟨hi2, rfl⟩ | ⟨-, rfl⟩⟩
  · intro _
    simp only [enterInner_curI, enterInner_curJ, enterInner_cap, countRead_curI, countRead_cap, hi1]
    exact ⟨hi, fun _ => by omega⟩
  · exact fun _ => ⟨hi, nofun⟩
  · exact nofun
  · intro _
    have hj2 : (s.curJ + 1).toNat = s.curJ.toNat + 1 := toNat_add_one (c := s.cap) (hj hl).2
    obtain ⟨hij, -⟩ := hj hl
    simp only [nextJ_curI, nextJ_curJ, nextJ_cap, countRead_curI, countRead_curJ, countRead_cap, hj2]
    exact ⟨hi, fun _ => by omega⟩
  · exact fun _ => ⟨hi, nofun⟩
  · intro _
    simp only [nextRow_curI, nextRow_cap, nextRow_label, hi1]
    exact ⟨by omega, nofun⟩
  · exact nofun

theorem seqInv_bounds {s : State} (hp : s.phase = .scanning) (hs : SeqInv s) :
    s.curI.toNat + 2 ≤ s.cap.toNat ∧ s.curI.toNat ≤ 253 ∧
      (s.label = .inner → s.curJ.toNat + 1 ≤ s.cap.toNat ∧ s.curJ.toNat ≤ 254) := by
  have hcap := s.cap.isLt
  obtain ⟨hi, hj⟩ := hs hp
  exact ⟨hi, by omega, fun hl => by have := (hj hl).2; omega⟩

/-- Settles O35: the start of a scan, each micro-step, and what the bounds come to since CAP ≤ 255. -/
theorem cursorStaysInBounds : Obligations.CursorStaysInBounds :=
  ⟨fun _ _ => seqInv_enterScan, fun _ _ => seqStep_seqInv, fun _ => seqInv_bounds⟩

/-! What the scan reads of a record (R31, R113). -/

theorem collidable_sameForScan {c : Config} {r r' : Record} (h : sameForScan c r r') :
    collidable c r = collidable c r' := by
  obtain ⟨-, -, hcoll, -, -, halive⟩ := h
  unfold collidable
  cases hq : c.requireAlive with
  | false => simp [hcoll]
  | true => simp [hcoll, halive hq]

theorem boxOf_sameForScan {c : Config} {r r' : Record} (h : sameForScan c r r') : boxOf c r = boxOf c r' := by
  obtain ⟨hx, hy, -, hw, hh, -⟩ := h
  simp only [boxOf, hx, hy, hw, hh]

theorem overlaps_sameForScan {c : Config} {a a' b b' : Record} (ha : sameForScan c a a')
    (hb : sameForScan c b b') : overlaps c a b = overlaps c a' b' := by
  simp only [overlaps, boxOf_sameForScan ha, boxOf_sameForScan hb]

theorem sameForScan.refl (c : Config) (r : Record) : sameForScan c r r := ⟨rfl, rfl, rfl, rfl, rfl, fun _ => rfl⟩

/-- Records with the same x, y and flags agree in all a scan reads, whatever the parameters (R31). -/
theorem sameForScan_of_fields {r r' : Record} (hx : recX r' = recX r) (hy : recY r' = recY r)
    (hf : recFlags r' = recFlags r) (c : Config) : sameForScan c r r' := by
  unfold sameForScan
  rw [hx, hy, hf]
  exact sameForScan.refl c r

/-- FirstHit rests on the two tests of R105 alone, at the indices from the start up to the capacity. -/
theorem firstHit_congr {c c' : Config} {mem mem' : Nat → Record} {start cap : Nat}
    (hcoll : ∀ k, start ≤ k → k < cap → collidable c (mem k) = collidable c' (mem' k))
    (hover : ∀ i j, start ≤ i → i < j → j < cap → overlaps c (mem i) (mem j) = overlaps c' (mem' i) (mem' j)) :
    firstHit c mem start cap = firstHit c' mem' start cap := by
  unfold firstHit
  rw [← List.head?_filterMap, ← List.head?_filterMap]
  refine congrArg List.head? (List.filterMap_congr fun i hi => ?_)
  rw [List.mem_range'_1] at hi
  rw [hcoll i hi.1 (by omega)]
  congr 2
  refine List.find?_congr fun j hj => ?_
  rw [List.mem_range'_1] at hj
  rw [hcoll j (by omega) (by omega), hover i j hi.1 (by omega) (by omega)]

theorem firstHit_sameForScan {c : Config} {mem mem' : Nat → Record} {start cap : Nat}
    (h : ∀ k, start ≤ k → k < cap → sameForScan c (mem k) (mem' k)) :
    firstHit c mem start cap = firstHit c mem' start cap :=
  firstHit_congr (fun k hk hk' => collidable_sameForScan (h k hk hk'))
    fun i j hi hij hj => overlaps_sameForScan (h i hi (by omega)) (h j (by omega) hj)

/-! What each command answers where nothing overlaps it (R61). -/

theorem exec_cfg_quiet {s : State} (hq : s.overlap = Overlap.quiet) (n : Nat) :
    exec (.cfg n) s = .next (if 255 < n then s.raiseStatus codeInvalidInput
      else (s.setCap (BitVec.ofNat 8 n)).finish codeOk) := by
  rcases exec_cfg_cases s n with ⟨hn, he⟩ | ⟨hn, he⟩
  · simp [he, hn, closeCommand_of_quiet, hq]
  · simp [he, Nat.not_lt.2 hn, closeCommand_of_quiet, hq]

theorem exec_scanNoOut_quiet {s : State} (hq : s.overlap = Overlap.quiet) (n : Nat) :
    exec (.scanNoOut n) s =
      .next (s.raiseStatus (if s.cap.toNat ≤ n then codeStartTooHigh else codeInvalidInput)) := by
  rcases exec_scanNoOut_cases s n with ⟨hn, he⟩ | ⟨hn, he⟩
  · simp [he, hn, closeCommand_of_quiet, hq]
  · simp [he, Nat.not_le.2 hn, closeCommand_of_quiet, hq]

theorem exec_scan_tooHigh_quiet {s : State} (hq : s.overlap = Overlap.quiet) {n : Nat} (hn : s.cap.toNat ≤ n) :
    exec (.scan n) s = .next (s.raiseStatus codeStartTooHigh) := by
  rcases exec_scan_cases s n with ⟨-, he⟩ | ⟨hn', -⟩ | ⟨hn', -⟩
  · simp [he, closeCommand_of_quiet, hq]
  · omega
  · omega

/-- `t` is what a SCAN from `n` makes of `s` where sprite memory is stable and holds `mem` (R105, R111): the
pair FirstHit gives or none, in so many reads (R106). -/
structure ScanAnswer (mem : Nat → Record) (n : Nat) (s t : State) : Prop where
  frame : onlyScanWrites s t
  hit : ∀ i j, firstHit s.cfg mem n s.cap.toNat = some (i, j) →
    t.status = 0x10 ∧ t.result = encodePair (BitVec.ofNat 8 i) (BitVec.ofNat 8 j) ∧
      n ≤ i ∧ i < j ∧ j < s.cap.toNat ∧ t.reads = s.reads + rowsReads s.cfg mem s.cap.toNat n i + 1 + (j - i)
  noHit : firstHit s.cfg mem n s.cap.toNat = none →
    t.status = 0x00 ∧ t.result = s.result ∧
      t.reads = s.reads + rowsReads s.cfg mem s.cap.toNat n (s.cap.toNat - 1)

/-- A run of the sequencer that ends IDLE, with nothing overlapping, keeps all but the fields a scan writes. -/
theorem onlyScanWrites_of_frame {s t : State} (h : SeqFrame s t) (ho : t.overlap = s.overlap)
    (hp : t.phase = .idle) : onlyScanWrites s t := by
  obtain ⟨⟩ := t
  obtain ⟨hcap, hstorage, hcfg, hhost, hrdata, -, -⟩ := h
  simp only at hcap hstorage hcfg hhost hrdata ho hp
  simp only [onlyScanWrites, hcap, hstorage, hcfg, hhost, hrdata, ho, hp]

theorem enterScan_frame (s : State) (start : BitVec 8) : SeqFrame s (s.enterScan start) :=
  ⟨rfl, rfl, rfl, rfl, rfl, rfl, .inl rfl⟩

theorem finish_frame (s : State) (c : BitVec 8) : SeqFrame s (s.finish c) :=
  ⟨rfl, rfl, rfl, rfl, rfl, rfl, .inl rfl⟩

/-- A scan of a pair or more is a run of `rows_from`, within the budget of micro-steps. -/
theorem runScan_answer {s : State} {mem : Nat → Record} {n : Nat} (hq : s.overlap = Overlap.quiet)
    (hn : n + 1 < s.cap.toNat) (hm : memAgrees s mem n s.cap.toNat) :
    ∃ t, runScan (s.enterScan (BitVec.ofNat 8 n)) = .next t ∧ ScanAnswer mem n s t := by
  have hcap := s.cap.isLt
  have hi : (s.enterScan (BitVec.ofNat 8 n)).curI.toNat = n := by
    rw [enterScan_curI, BitVec.toNat_ofNat]; omega
  obtain ⟨k, t, hS, hidle, ht⟩ := rows_from (mem := mem) (s.cap.toNat - n - 2)
    (s.enterScan (BitVec.ofNat 8 n)) rfl rfl hq (by rw [hi, enterScan_cap]; omega) (by rw [hi]; exact hm)
  have hrun : runSeq k (s.enterScan (BitVec.ofNat 8 n)) = .next t := by simpa [runSeq] using hS.run 0
  refine ⟨t, ?_, ?_, ?_, ?_⟩
  · have hbudget : seqBudget (s.enterScan (BitVec.ofNat 8 n)) = scanBound s.cap.toNat := by simp [seqBudget, hq]
    rw [runScan, hbudget, ← enterScan_cap s (BitVec.ofNat 8 n), runSeq_bound hidle hrun]
    exact congrArg _ (closeCommand_of_quiet (hS.quiet.trans hq))
  · exact onlyScanWrites_of_frame ((enterScan_frame s _).trans hS.frame) hS.quiet hidle
  · intro i j hf
    rw [hi] at ht
    simpa only [enterScan_cfg, enterScan_cap, enterScan_reads, enterScan_result, hf] using ht
  · intro hf
    rw [hi] at ht
    simpa only [enterScan_cfg, enterScan_cap, enterScan_reads, enterScan_result, hf] using ht

/-- R111: with sprite memory stable, every SCAN whose start is below the capacity completes, with the answer of
FirstHit. -/
theorem exec_scan_answer {s : State} {mem : Nat → Record} {n : Nat} (hp : s.phase = .idle)
    (hq : s.overlap = Overlap.quiet) (hn : n < s.cap.toNat) (hm : memAgrees s mem n s.cap.toNat) :
    ∃ t, exec (.scan n) s = .next t ∧ ScanAnswer mem n s t := by
  rcases exec_scan_cases s n with ⟨hn', -⟩ | ⟨hlast, he⟩ | ⟨hpair, he⟩
  · omega
  · have hnone : firstHit s.cfg mem n s.cap.toNat = none := by
      simp [firstHit, show s.cap.toNat - 1 - n = 0 by omega]
    refine ⟨s.finish codeOk, by simp [he, closeCommand_of_quiet, hq], ?_, ?_, fun _ => ⟨rfl, rfl, ?_⟩⟩
    · exact onlyScanWrites_of_frame (finish_frame s codeOk) rfl hp
    · simp [hnone]
    · rw [show s.cap.toNat - 1 = n by omega, rowsReads_self]; rfl
  · rw [he]
    exact runScan_answer hq hpair hm

theorem onlyScanWrites.cap {s t : State} (h : onlyScanWrites s t) : t.cap = s.cap := by
  rw [onlyScanWrites] at h
  rw [h]

/-! A change of velocity and animation (R31). -/

theorem recordAt_setStorage_same {s : State} (hok : s.cfg.layout.ok = true) {k : Nat} {r : Record}
    (h : recordAt s k = some r) (r' : Record) :
    recordAt (s.setStorage (writeRecord s.storage s.cfg k r')) k = some r' :=
  readRecord_writeRecord_same s.storage hok r' (readRecord_places h)

theorem recordAt_setStorage_other {s : State} (hok : s.cfg.layout.ok = true) {k k₂ : Nat} (r' : Record)
    (h : k₂ ≠ k) : recordAt (s.setStorage (writeRecord s.storage s.cfg k r')) k₂ = recordAt s k₂ :=
  readRecord_writeRecord_other s.storage hok r' h

/-- What sprite memory holds, an unwritten record read as 0. -/
def memOf (s : State) (k : Nat) : Record := (recordAt s k).getD 0

theorem memAgrees_memOf {s : State} {lo hi : Nat} (h : recordsWritten s lo hi) : memAgrees s (memOf s) lo hi := by
  intro k hlo hhi
  obtain ⟨r, hr⟩ := Option.isSome_iff_exists.1 (h k hhi hlo)
  simp [memOf, hr]

/-- A written record stays written when another value is put in its place or in another's. -/
theorem recordsWritten_setStorage {s : State} (hok : s.cfg.layout.ok = true) {k lo hi : Nat} {r : Record}
    (h : recordAt s k = some r) (hw : recordsWritten s lo hi) (r' : Record) :
    recordsWritten (s.setStorage (writeRecord s.storage s.cfg k r')) lo hi := by
  intro k₂ hhi hlo
  by_cases hk : k₂ = k
  · rw [hk, recordAt_setStorage_same hok h]; rfl
  · rw [recordAt_setStorage_other hok r' hk]; exact hw k₂ hhi hlo

/-- A record that differs in velocity and animation only leaves all of memory the same for a scan (R31). -/
theorem memOf_setStorage_sameForScan {s : State} (hok : s.cfg.layout.ok = true) {k : Nat} {r r' : Record}
    (h : recordAt s k = some r) (hr : sameForScan s.cfg r r') (k₂ : Nat) :
    sameForScan s.cfg (memOf s k₂) (memOf (s.setStorage (writeRecord s.storage s.cfg k r')) k₂) := by
  by_cases hk : k₂ = k
  · subst hk
    simpa only [memOf, h, recordAt_setStorage_same hok h, Option.getD_some] using hr
  · simpa only [memOf, recordAt_setStorage_other hok r' hk] using sameForScan.refl s.cfg _

/-- Scans with the same first hit leave STATUS and RESULT the same, where RESULT was the same before. -/
theorem ScanAnswer.same {mem mem' : Nat → Record} {n : Nat} {s s' t t' : State} (h : ScanAnswer mem n s t)
    (h' : ScanAnswer mem' n s' t') (hres : s'.result = s.result)
    (hfirst : firstHit s'.cfg mem' n s'.cap.toNat = firstHit s.cfg mem n s.cap.toNat) :
    t'.status = t.status ∧ t'.result = t.result := by
  cases hf : firstHit s.cfg mem n s.cap.toNat with
  | none =>
    obtain ⟨hst, hrt, -⟩ := h.noHit hf
    obtain ⟨hst', hrt', -⟩ := h'.noHit (hfirst.trans hf)
    exact ⟨hst'.trans hst.symm, by rw [hrt', hrt, hres]⟩
  | some p =>
    obtain ⟨hst, hrt, -⟩ := h.hit p.1 p.2 hf
    obtain ⟨hst', hrt', -⟩ := h'.hit p.1 p.2 (hfirst.trans hf)
    exact ⟨hst'.trans hst.symm, hrt'.trans hrt.symm⟩

/-- Settles O31: CFG, SCAN.NOOUT and a SCAN that fails its check read no record; any other SCAN answers by
FirstHit, which reads x, y and flags only. -/
theorem velocityAndAnimationNeverMatter : Obligations.VelocityAndAnimationNeverMatter := by
  intro i s k r r' hp hq hok hw hr hx hy hf
  cases i with
  | cfg n =>
    refine ⟨_, _, exec_cfg_quiet hq n, exec_cfg_quiet (by simpa using hq) n, ?_⟩
    split <;> exact ⟨rfl, rfl, rfl⟩
  | scanNoOut n =>
    exact ⟨_, _, exec_scanNoOut_quiet hq n, exec_scanNoOut_quiet (by simpa using hq) n, rfl, rfl, rfl⟩
  | scan n =>
    by_cases hn : s.cap.toNat ≤ n
    · exact ⟨_, _, exec_scan_tooHigh_quiet hq hn, exec_scan_tooHigh_quiet (by simpa using hq) hn, rfl, rfl, rfl⟩
    · have hm := memAgrees_memOf hw
      have hm' := memAgrees_memOf (recordsWritten_setStorage hok hr hw r')
      obtain ⟨t, ht, ha⟩ := exec_scan_answer hp hq (Nat.not_le.1 hn)
        (memAgrees_mono hm (Nat.zero_le n) (Nat.le_refl _))
      obtain ⟨t', ht', ha'⟩ := exec_scan_answer (s := s.setStorage (writeRecord s.storage s.cfg k r')) hp hq
        (Nat.not_le.1 hn) (memAgrees_mono hm' (Nat.zero_le n) (Nat.le_refl _))
      have hfirst := firstHit_sameForScan (start := n) (cap := s.cap.toNat) fun k₂ _ _ =>
        memOf_setStorage_sameForScan hok hr (sameForScan_of_fields hx hy hf s.cfg) k₂
      obtain ⟨hst, hres⟩ := ha.same ha' rfl hfirst.symm
      exact ⟨t, t', ht, ht', hst, hres, ha'.frame.cap.trans ha.frame.cap.symm⟩

end Sys2Proof.Machine

/-! The statements of 20_memory.md: where a command can stop and that it is answered otherwise, that its answer
rests on the registers and on the words of the port alone, the register port, and sprite storage. -/

namespace Sys2Proof.Machine

/-! Where a command can stop (R51, R154, R161). -/

/-- What holds at every micro-step of a scan from `n`: the cursor is in its bounds and no row before `n` is
examined. -/
structure ScanFrom (n : Nat) (s : State) : Prop where
  bounds : SeqInv s
  fromStart : s.phase = .scanning → n ≤ s.curI.toNat

theorem scanFrom_enterScan {s : State} {n : Nat} (h : n + 1 < s.cap.toNat) :
    ScanFrom n (s.enterScan (BitVec.ofNat 8 n)) where
  bounds := seqInv_enterScan h
  fromStart _ := by
    have hcap := s.cap.isLt
    rw [enterScan_curI, BitVec.toNat_ofNat]
    omega

/-- A micro-step ends the scan, leaves CUR_I, or moves it on to the next row (R110). -/
theorem seqStep_curI {s t : State} (h : seqStep s = .next t) :
    t.phase = .idle ∨ t.curI = s.curI ∨ (s.curI.toNat + 2 < s.cap.toNat ∧ t.curI = s.curI + 1) := by
  rcases seqStep_next h with ⟨-, a, -, ⟨-, rfl⟩ | ⟨-, rfl⟩⟩ |
    ⟨-, b, -, ⟨-, rfl⟩ | ⟨-, ⟨-, rfl⟩ | ⟨-, rfl⟩⟩⟩ | ⟨-, ⟨hi, rfl⟩ | ⟨-, rfl⟩⟩
  case inr.inl.inl => exact .inl rfl
  case inr.inr.inl => exact .inr (.inr ⟨hi, rfl⟩)
  case inr.inr.inr => exact .inl rfl
  all_goals exact .inr (.inl rfl)

theorem seqStep_scanFrom {n : Nat} {s t : State} (hp : s.phase = .scanning) (hs : ScanFrom n s)
    (h : seqStep s = .next t) : ScanFrom n t where
  bounds := seqStep_seqInv hp hs.bounds h
  fromStart ht := by
    have hn := hs.fromStart hp
    rcases seqStep_curI h with hidle | hi | ⟨hlt, hi⟩
    · exact absurd (hidle.symm.trans ht) nofun
    · rwa [hi]
    · have hlt : s.curI < s.cap := by show s.curI.toNat < s.cap.toNat; omega
      rw [hi, toNat_add_one hlt]
      omega

/-- A micro-step that faults does so in the read of a record from the start on and below CAP. -/
theorem seqStep_fault_read {n : Nat} {s : State} {f : Fault} (hp : s.phase = .scanning) (hs : ScanFrom n s)
    (h : seqStep s = .fault f) : ∃ k, n ≤ k.toNat ∧ k < s.cap ∧ sprRead s k = .error f := by
  obtain ⟨hi, hj⟩ := hs.bounds hp
  have hn := hs.fromStart hp
  rcases seqStep_fault h with ⟨-, hr⟩ | ⟨hl, hr⟩
  · exact ⟨s.curI, hn, by show s.curI.toNat < s.cap.toNat; omega, hr⟩
  · obtain ⟨hij, hjc⟩ := hj hl
    exact ⟨s.curJ, by omega, hjc, hr⟩

/-- The stops of a SCAN from `n` issued at `s`: a record from `n` on and below CAP that was not written before
it (R154), or a port that falls silent during it (R161). -/
def scanStop (n : Nat) (s : State) (f : Fault) : Prop :=
  (∃ k, f = .unwrittenRecord k ∧ n ≤ k.toNat ∧ k < s.cap ∧ recordAt s k.toNat = none) ∨
    (f = .spritePortSilent ∧ ∃ m, s.overlap.disturbance = .portSilentAfter m)

theorem seqStep_scanStop {n : Nat} {s : State} {f : Fault} (hp : s.phase = .scanning) (hs : ScanFrom n s)
    (h : seqStep s = .fault f) : scanStop n s f := by
  obtain ⟨k, hn, hk, hr⟩ := seqStep_fault_read hp hs h
  rcases sprRead_error hr with ⟨hcap, -⟩ | ⟨-, hd, rfl⟩ | ⟨-, hw, rfl⟩
  · exact absurd hk (BitVec.not_lt.2 hcap)
  · exact .inr ⟨rfl, 0, hd⟩
  · exact .inl ⟨k, rfl, hn, hk, portWord_eq_none hw⟩

/-- A stop met during a run is one of the state the run began in: micro-steps change neither CAP nor storage,
and silence none but a port that was to fall silent. -/
theorem scanStop_of_frame {n : Nat} {s u : State} {f : Fault} (hf : SeqFrame s u) (h : scanStop n u f) :
    scanStop n s f := by
  rcases h with ⟨k, rfl, hn, hk, hr⟩ | ⟨rfl, m, hm⟩
  · rw [hf.cap] at hk
    rw [recordAt_congr hf.storage hf.cfg] at hr
    exact .inl ⟨k, rfl, hn, hk, hr⟩
  · rcases hf.disturbance with hd | ⟨m', -, hd, -⟩
    · exact .inr ⟨rfl, m, hd.symm.trans hm⟩
    · exact .inr ⟨rfl, m', hd⟩

theorem runScan_fault {s : State} {f : Fault} (h : runScan s = .fault f) :
    runSeq (seqBudget s) s = .fault f := by
  unfold runScan at h
  split at h
  · exact absurd h nofun
  · rename_i g hg
    rw [hg, Host.Outcome.fault.inj h]
  · exact absurd h nofun

theorem runScan_not_refused (s : State) (r : Refusal) : runScan s ≠ .refused r := by
  unfold runScan
  split
  · exact nofun
  · exact nofun
  · rename_i q hq
    exact absurd hq (runSeq_not_refused q _ _)

/-- A command is answered without a read, or is a SCAN with a pair to examine: a run of the sequencer. -/
theorem exec_next_or_run (i : Instr) (s : State) :
    (∃ t, exec i s = .next t) ∨
      ∃ n, i = .scan n ∧ n + 1 < s.cap.toNat ∧ exec i s = runScan (s.enterScan (BitVec.ofNat 8 n)) := by
  cases i with
  | cfg n => rcases exec_cfg_cases s n with ⟨-, he⟩ | ⟨-, he⟩ <;> exact .inl ⟨_, he⟩
  | scanNoOut n => rcases exec_scanNoOut_cases s n with ⟨-, he⟩ | ⟨-, he⟩ <;> exact .inl ⟨_, he⟩
  | scan n =>
    rcases exec_scan_cases s n with ⟨-, he⟩ | ⟨-, he⟩ | ⟨hn, he⟩
    · exact .inl ⟨_, he⟩
    · exact .inl ⟨_, he⟩
    · exact .inr ⟨n, rfl, hn, he⟩

/-- Of the three commands only a SCAN can fault, and only at one of its stops. -/
theorem exec_fault {i : Instr} {s : State} {f : Fault} (h : exec i s = .fault f) :
    ∃ n, i = .scan n ∧ scanStop n s f := by
  obtain ⟨t, he⟩ | ⟨n, hi, hn, he⟩ := exec_next_or_run i s
  · exact absurd (he.symm.trans h) nofun
  · obtain ⟨u, hu, hf, hp, hstop⟩ :=
      (runSeq_invariant seqStep_scanFrom (scanFrom_enterScan hn)).2 f (runScan_fault (he.symm.trans h))
    exact ⟨n, hi, scanStop_of_frame ((enterScan_frame s _).trans hf) (seqStep_scanStop hp hu hstop)⟩

theorem exec_not_refused (i : Instr) (s : State) (r : Refusal) : exec i s ≠ .refused r := by
  obtain ⟨t, he⟩ | ⟨n, -, -, he⟩ := exec_next_or_run i s
  · exact he ▸ nofun
  · exact he ▸ runScan_not_refused _ r

/-- Settles O36: the cursor stays below CAP, so a read of the sequencer faults only for the record it reads or
for the port, and the run changes neither storage nor whether the port is to fall silent. -/
theorem commandsStopOnlyAtTheirReads : Obligations.CommandsStopOnlyAtTheirReads := by
  refine fun i s => ⟨exec_not_refused i s, fun f h => ?_⟩
  obtain ⟨n, -, ⟨k, hf, -, hk, hr⟩ | hsilent⟩ := exec_fault h
  · exact .inl ⟨k, hf, hk, hr⟩
  · exact .inr hsilent

/-! A command whose records are written and whose port answers is answered (R66). -/

theorem exec_goesOn {i : Instr} {s : State} (hd : ∀ m, s.overlap.disturbance ≠ .portSilentAfter m)
    (hw : ∀ n, i = .scan n → recordsWritten s n s.cap.toNat) : goesOn (exec i s) := by
  cases h : exec i s with
  | next t => exact ⟨t, rfl⟩
  | refused r => exact absurd h (exec_not_refused i s r)
  | fault f =>
    obtain ⟨n, hi, ⟨k, -, hn, hk, hr⟩ | ⟨-, m, hm⟩⟩ := exec_fault h
    · have hsome := hw n hi k.toNat hk hn
      exact absurd hsome (by simp [hr])
    · exact absurd hm (hd m)

theorem issueCommand_goesOn {w : Word} {s : State} (hq : s.overlap = Overlap.quiet)
    (hw : recordsWritten s 0 s.cap.toNat) : goesOn (issueCommand w s) := by
  rcases issueCommand_cases w s with ⟨i, -, he⟩ | ⟨e, -, he⟩
  · rw [he]
    exact exec_goesOn (by simp [hq]) fun n _ k hk _ => hw k hk (Nat.zero_le k)
  · exact ⟨_, he⟩

theorem step_of_idle {s : State} {a : HostAction} {rest : List HostAction} (hp : s.phase = .idle)
    (hh : s.host = a :: rest) : step s = hostAct a (s.setHost rest) := by
  simp only [step, hp, nextAction, hh]

/-- CMD stands at REG_BASE (R55). -/
theorem portAccess_cmd {c : Config} {addr width : Nat} (h : portAccess c addr width = .ok .cmd) :
    addr = c.regBase := by
  obtain ⟨⟨-, ⟨hlo, -⟩, -⟩, hreg⟩ := portAccess_ok h
  suffices addr - c.regBase = 0 by omega
  unfold portReg at hreg
  split at hreg
  · assumption
  all_goals exact absurd hreg (by simp)

theorem hostRead_goesOn {addr width : Nat} {s : State} (ha : definedAccess s.cfg addr width) :
    goesOn (hostRead addr width s) := by
  obtain ⟨reg, hreg⟩ := portAccess_defined ha
  exact ⟨s.setRdata (regValue s reg), by simp only [hostRead, hreg]⟩

theorem hostWrite_goesOn {addr width : Nat} {v : Word} {o : Overlap} {s : State}
    (ha : definedAccess s.cfg addr width)
    (hd : addr = s.cfg.regBase → o = Overlap.quiet ∧ recordsWritten s 0 s.cap.toNat) :
    goesOn (hostWrite addr width v o s) := by
  obtain ⟨reg, hreg⟩ := portAccess_defined ha
  unfold hostWrite
  rw [hreg]
  cases reg with
  | cmd =>
    obtain ⟨hq, hw⟩ := hd (portAccess_cmd hreg)
    exact issueCommand_goesOn (s := s.setOverlap o) hq hw
  | status => exact ⟨s, rfl⟩
  | result => exact ⟨s, rfl⟩
  | capacity => exact ⟨s, rfl⟩

/-- Settles O59: a defined access is no refusal, a quiet command over written records no fault, and the host's
other actions can stop at nothing. -/
theorem dutifulHostIsAlwaysAnswered : Obligations.DutifulHostIsAlwaysAnswered := by
  intro s hinv hduty
  cases hh : s.host with
  | nil => exact ⟨s, by simp only [step, hinv.idle, nextAction, hh]⟩
  | cons a rest =>
    rw [step_of_idle hinv.idle hh]
    simp only [hostDuties, hh] at hduty
    cases a with
    | write addr width v o => exact hostWrite_goesOn (s := s.setHost rest) hduty.1 hduty.2
    | read addr width => exact hostRead_goesOn (s := s.setHost rest) hduty
    | spriteWrite k r => exact ⟨_, rfl⟩
    | reset => exact ⟨_, rfl⟩

/-! How a scan ends: IDLE, with its answer, and the writes that overlapped it in storage (R61, R67). -/

theorem seqBudget_of_noReset {s : State} (h : s.overlap.noReset) : seqBudget s = scanBound s.cap.toNat := by
  unfold seqBudget
  split
  · rename_i n hn
    exact absurd hn (h n)
  · rfl

theorem closeCommand_phase_of_noReset {s : State} (h : s.overlap.noReset) : s.closeCommand.phase = s.phase := by
  rw [closeCommand_of_no_reset h, settleWrites_phase]

/-- A command whose scan has begun leaves the block IDLE: the scan ends within its bound, or reset ends it. -/
theorem runScan_phase {s t : State} (h : runScan s = .next t) : t.phase = .idle := by
  obtain ⟨u, hu, rfl⟩ := runScan_next h
  have hf := runSeq_frame hu
  by_cases hs : s.overlap.noReset
  · rw [seqBudget_of_noReset hs] at hu
    rw [closeCommand_phase_of_noReset (hf.noReset hs)]
    exact runSeq_ends_idle (seqMeasure_lt s) hu
  · obtain ⟨n, hn⟩ := not_forall_not.1 hs
    have hun : u.overlap.disturbance = .resetAfter n := by
      rcases hf.disturbance with hd | ⟨m, -, hd, -⟩
      · exact hd.trans hn
      · exact absurd (hn.symm.trans hd) nofun
    rw [closeCommand_of_reset hun, resetBlock_phase]

/-- What no command changes, and what stands in storage after it (R63, R67, R109). -/
structure CommandFrame (s t : State) : Prop where
  cfg : t.cfg = s.cfg
  host : t.host = s.host
  rdata : t.rdata = s.rdata
  overlap : t.overlap = Overlap.quiet
  storage : t.storage = writeRecords s.cfg s.overlap.writes s.storage

/-- Closing a command that so far changed only what a micro-step may change. -/
theorem closeCommand_frame {s u : State} (h : SeqFrame s u) : CommandFrame s u.closeCommand where
  cfg := (closeCommand_cfg u).trans h.cfg
  host := (closeCommand_host u).trans h.host
  rdata := (closeCommand_rdata u).trans h.rdata
  overlap := closeCommand_overlap u
  storage := by rw [closeCommand_storage, h.cfg, h.writes, h.storage]

theorem runScan_frame {s t : State} (h : runScan s = .next t) : CommandFrame s t := by
  obtain ⟨u, hu, rfl⟩ := runScan_next h
  exact closeCommand_frame (runSeq_frame hu)

theorem exec_frame {i : Instr} {s t : State} (h : exec i s = .next t) : CommandFrame s t := by
  cases i with
  | cfg n =>
    rcases exec_cfg_cases s n with ⟨-, he⟩ | ⟨-, he⟩
    · obtain rfl := Host.Outcome.next.inj (he.symm.trans h)
      exact closeCommand_frame (finish_frame s _)
    · obtain rfl := Host.Outcome.next.inj (he.symm.trans h)
      constructor <;> simp
  | scan n =>
    rcases exec_scan_cases s n with ⟨-, he⟩ | ⟨-, he⟩ | ⟨-, he⟩
    · obtain rfl := Host.Outcome.next.inj (he.symm.trans h)
      exact closeCommand_frame (finish_frame s _)
    · obtain rfl := Host.Outcome.next.inj (he.symm.trans h)
      exact closeCommand_frame (finish_frame s _)
    · obtain ⟨u, hu, rfl⟩ := runScan_next (he.symm.trans h)
      exact closeCommand_frame ((enterScan_frame s _).trans (runSeq_frame hu))
  | scanNoOut n =>
    rcases exec_scanNoOut_cases s n with ⟨-, he⟩ | ⟨-, he⟩
    all_goals
      obtain rfl := Host.Outcome.next.inj (he.symm.trans h)
      exact closeCommand_frame (finish_frame s _)

/-- What a scan answers, once IDLE: a hit, or OK with RESULT as it was. -/
def scanAnswered (s t : State) : Prop :=
  t.status = codeCollisionDetected ∨ (t.status = codeOk ∧ t.result = s.result)

/-- A micro-step goes on with the scan and leaves RESULT, or ends the scan with its answer (R110). -/
theorem seqStep_answer {s t : State} (h : seqStep s = .next t) :
    (t.phase = s.phase ∧ t.result = s.result) ∨ (t.phase = .idle ∧ scanAnswered s t) := by
  rcases seqStep_next h with ⟨-, a, -, ⟨-, rfl⟩ | ⟨-, rfl⟩⟩ |
    ⟨-, b, -, ⟨-, rfl⟩ | ⟨-, ⟨-, rfl⟩ | ⟨-, rfl⟩⟩⟩ | ⟨-, ⟨-, rfl⟩ | ⟨-, rfl⟩⟩
  case inr.inl.inl => exact .inr ⟨rfl, .inl rfl⟩
  case inr.inr.inr => exact .inr ⟨rfl, .inr ⟨rfl, rfl⟩⟩
  all_goals exact .inl ⟨rfl, rfl⟩

theorem runSeq_answer {n : Nat} {s t : State} (hp : s.phase = .scanning) (h : runSeq n s = .next t) :
    (t.phase = .scanning ∧ t.result = s.result) ∨ (t.phase = .idle ∧ scanAnswered s t) := by
  refine (runSeq_invariant
    (P := fun u => (u.phase = .scanning ∧ u.result = s.result) ∨ (u.phase = .idle ∧ scanAnswered s u))
    (fun {u v} hup hu huv => ?_) (.inl ⟨hp, rfl⟩)).1 t h
  have hres : u.result = s.result := by simpa [hup] using hu
  simpa only [scanAnswered, hup, hres] using seqStep_answer huv

theorem runScan_answered {s t : State} (hp : s.phase = .scanning) (hs : s.overlap.noReset)
    (h : runScan s = .next t) : scanAnswered s t := by
  have hidle := runScan_phase h
  obtain ⟨u, hu, rfl⟩ := runScan_next h
  have hus := (runSeq_frame hu).noReset hs
  rw [closeCommand_phase_of_noReset hus] at hidle
  obtain ⟨-, hres, hst⟩ := closeCommand_registers hus
  rw [scanAnswered, hres, hst]
  rcases runSeq_answer hp hu with ⟨hscan, -⟩ | ⟨-, ha⟩
  · exact absurd (hidle.symm.trans hscan) nofun
  · exact ha

/-- A SCAN past its checks that no reset interrupts leaves the block IDLE with an answer. -/
theorem exec_scan_answered {s t : State} {n : Nat} (hp : s.phase = .idle) (hs : s.overlap.noReset)
    (hn : n < s.cap.toNat) (h : exec (.scan n) s = .next t) : t.phase = .idle ∧ scanAnswered s t := by
  rcases exec_scan_cases s n with ⟨hn', -⟩ | ⟨-, he⟩ | ⟨-, he⟩
  · omega
  · obtain rfl := Host.Outcome.next.inj (he.symm.trans h)
    obtain ⟨-, hres, hst⟩ := closeCommand_registers (s := s.finish codeOk) hs
    exact ⟨(closeCommand_phase_of_noReset (s := s.finish codeOk) hs).trans hp, .inr ⟨hst, hres⟩⟩
  · exact ⟨runScan_phase (he.symm.trans h), runScan_answered (s := s.enterScan _) rfl hs (he.symm.trans h)⟩

/-- Settles O29: the scan stops at no read, ends within its bound, and closing it brings the overlapping writes
in. -/
theorem scanCompletesUnderOverlappingWrites : Obligations.ScanCompletesUnderOverlappingWrites := by
  intro s n hp hd hn hw
  have hs : s.overlap.noReset := fun m hm => absurd (hd.symm.trans hm) nofun
  obtain ⟨t, ht⟩ := exec_goesOn (i := .scan n) (s := s) (by simp [hd]) fun m hm => Instr.scan.inj hm ▸ hw
  obtain ⟨hidle, ha⟩ := exec_scan_answered hp hs hn ht
  have hf := exec_frame ht
  exact ⟨t, ht, hidle, hf.overlap, ha, (exec_scan_registers hs ht).1, hf.storage⟩

/-- Settles O50: the step of a SCANNING state is the rest of its scan. -/
theorem hostIsHeldDuringACommand : Obligations.HostIsHeldDuringACommand := by
  intro s t hp h
  have hrun : runScan s = .next t := by simpa only [step, hp] using h
  have hf := runScan_frame hrun
  exact ⟨hf.host, hf.rdata, runScan_phase hrun⟩

/-! Two runs side by side (R61, U12): what a command answers rests on the registers, the variant parameters and
the words the port presents. -/

/-- The two outcomes are states related by `R`, or the same stop. -/
def agreeBy (R : State → State → Prop) :
    Host.Outcome State Fault Refusal → Host.Outcome State Fault Refusal → Prop
  | .next t, .next u => R t u
  | .fault f, .fault g => f = g
  | .refused r, .refused q => r = q
  | _, _ => False

/-- All the ways two outcomes can agree. -/
theorem agreeBy.cases {R : State → State → Prop} {o o' : Host.Outcome State Fault Refusal} (h : agreeBy R o o') :
    (∃ t u, o = .next t ∧ o' = .next u ∧ R t u) ∨ (∃ f, o = .fault f ∧ o' = .fault f) ∨
      ∃ r, o = .refused r ∧ o' = .refused r := by
  unfold agreeBy at h
  split at h
  · exact .inl ⟨_, _, rfl, rfl, h⟩
  · exact .inr (.inl ⟨_, rfl, congrArg _ h.symm⟩)
  · exact .inr (.inr ⟨_, rfl, congrArg _ h.symm⟩)
  · exact h.elim

/-- Outcomes that agree by one relation agree by what else is known of the states they go on to. -/
theorem agreeBy.imp {R R' : State → State → Prop} {o o' : Host.Outcome State Fault Refusal}
    (h : agreeBy R o o') (himp : ∀ t u, o = .next t → o' = .next u → R t u → R' t u) : agreeBy R' o o' := by
  obtain ⟨t, u, rfl, rfl, h⟩ | ⟨f, rfl, rfl⟩ | ⟨r, rfl, rfl⟩ := h.cases
  · exact himp t u rfl rfl h
  · rfl
  · rfl

/-- STATUS, RESULT, CAP and PHASE are the same: all `sameReply` compares. -/
def sameRegisters (t u : State) : Prop :=
  t.status = u.status ∧ t.result = u.result ∧ t.cap = u.cap ∧ t.phase = u.phase

theorem sameReply_iff (o o' : Host.Outcome State Fault Refusal) : sameReply o o' ↔ agreeBy sameRegisters o o' := by
  cases o <;> cases o' <;> rfl

theorem sameAnswer_iff (o o' : Host.Outcome State Fault Refusal) :
    sameAnswer o o' ↔ agreeBy (fun t u => sameRegisters t u ∧ t.storage = u.storage) o o' := by
  cases o <;> cases o' <;> simp only [sameAnswer, agreeBy, sameRegisters, and_assoc]

/-- The two blocks are bound alike: nothing overlaps either command, and CAP, the variant parameters and the words
the port presents below CAP are the same. No micro-step changes any of it. -/
structure SamePort (s t : State) : Prop where
  quietLeft : s.overlap = Overlap.quiet
  quietRight : t.overlap = Overlap.quiet
  cap : s.cap = t.cap
  extentBias : s.cfg.extentBias = t.cfg.extentBias
  touch : s.cfg.touch = t.cfg.touch
  extentWrap : s.cfg.extentWrap = t.cfg.extentWrap
  requireAlive : s.cfg.requireAlive = t.cfg.requireAlive
  record : ∀ k, k < s.cap.toNat → recordAt s k = recordAt t k

/-- The two sequencers stand at the same place. Where a scan runs its cursor is the same, and inside a row the
latch and the partner are: before, they still hold what an earlier command left. -/
structure SameProgress (s t : State) : Prop where
  status : s.status = t.status
  result : s.result = t.result
  phase : s.phase = t.phase
  cursor : s.phase = .scanning → s.label = t.label ∧ s.curI = t.curI
  row : s.phase = .scanning → s.label = .inner → s.curJ = t.curJ ∧ s.aLat = t.aLat

theorem Overlap.eq_quiet {o : Overlap} (hw : o.writes = []) (hd : o.disturbance = .none) : o = Overlap.quiet := by
  cases o
  simp only at hw hd
  rw [hw, hd, Overlap.quiet]

theorem SeqFrame.quiet {s t : State} (h : SeqFrame s t) (hq : s.overlap = Overlap.quiet) :
    t.overlap = Overlap.quiet := by
  have hd : s.overlap.disturbance = .none := by simp [hq]
  refine Overlap.eq_quiet (h.writes.trans (by simp [hq])) ?_
  rcases h.disturbance with h1 | ⟨m, -, h1, -⟩
  · exact h1.trans hd
  · exact absurd (hd.symm.trans h1) nofun

theorem SamePort.frames {s t s' t' : State} (h : SamePort s t) (hs : SeqFrame s s') (ht : SeqFrame t t') :
    SamePort s' t' where
  quietLeft := hs.quiet h.quietLeft
  quietRight := ht.quiet h.quietRight
  cap := by rw [hs.cap, ht.cap, h.cap]
  extentBias := by rw [hs.cfg, ht.cfg, h.extentBias]
  touch := by rw [hs.cfg, ht.cfg, h.touch]
  extentWrap := by rw [hs.cfg, ht.cfg, h.extentWrap]
  requireAlive := by rw [hs.cfg, ht.cfg, h.requireAlive]
  record k hk := by
    rw [hs.cap] at hk
    rw [recordAt_congr hs.storage hs.cfg, recordAt_congr ht.storage ht.cfg, h.record k hk]

theorem SamePort.collidable_eq {s t : State} (h : SamePort s t) (r : Record) :
    collidable t.cfg r = collidable s.cfg r := (collidable_congr h.requireAlive r).symm

theorem SamePort.overlaps_eq {s t : State} (h : SamePort s t) (a b : Record) :
    overlaps t.cfg a b = overlaps s.cfg a b := (overlaps_congr h.extentBias h.touch h.extentWrap a b).symm

/-- Every read is answered with the same record in both, or stops both alike. -/
theorem SamePort.sprRead_same {s t : State} (h : SamePort s t) (k : BitVec 8) :
    (∃ r, sprRead s k = .ok (r, s.countRead) ∧ sprRead t k = .ok (r, t.countRead)) ∨
      ∃ f, sprRead s k = .error f ∧ sprRead t k = .error f := by
  have hs : s.overlap.writes = [] := by simp [h.quietLeft]
  have ht : t.overlap.writes = [] := by simp [h.quietRight]
  by_cases hk : k < s.cap
  · have hrec := h.record k.toNat hk
    have hkt : k < t.cap := h.cap ▸ hk
    cases hr : recordAt s k.toNat with
    | some r =>
      exact .inl ⟨r, sprRead_quiet h.quietLeft hk hr, sprRead_quiet h.quietRight hkt (hrec.symm.trans hr)⟩
    | none =>
      refine .inr ⟨.unwrittenRecord k, ?_, ?_⟩
      · simp [sprRead, BitVec.not_le.2 hk, h.quietLeft, portWord_of_no_writes hs, hr]
      · simp [sprRead, BitVec.not_le.2 hkt, h.quietRight, portWord_of_no_writes ht, hrec.symm.trans hr]
  · have hk := BitVec.not_lt.1 hk
    exact .inr ⟨.spriteIndexOutOfRange k, by simp [sprRead, hk], by simp [sprRead, ← h.cap, hk]⟩

theorem stepOuter_agree {s t : State} (hv : SamePort s t) (hg : SameProgress s t) (hp : s.phase = .scanning) :
    agreeBy SameProgress (stepOuter s) (stepOuter t) := by
  obtain ⟨-, hi⟩ := hg.cursor hp
  simp only [stepOuter, ← hi]
  rcases hv.sprRead_same s.curI with ⟨a, hs, ht⟩ | ⟨f, hs, ht⟩
  · simp only [hs, ht, hv.collidable_eq]
    split
    · exact ⟨hg.status, hg.result, hg.phase, fun _ => ⟨rfl, hi⟩, fun _ _ => ⟨by simp [hi], rfl⟩⟩
    · exact ⟨hg.status, hg.result, hg.phase, fun _ => ⟨rfl, hi⟩, fun _ => nofun⟩
  · simp only [hs, ht, agreeBy]

theorem stepInner_agree {s t : State} (hv : SamePort s t) (hg : SameProgress s t) (hp : s.phase = .scanning)
    (hl : s.label = .inner) : agreeBy SameProgress (stepInner s) (stepInner t) := by
  obtain ⟨-, hi⟩ := hg.cursor hp
  obtain ⟨hj, ha⟩ := hg.row hp hl
  simp only [stepInner, ← hj, ← ha, ← hv.cap]
  rcases hv.sprRead_same s.curJ with ⟨b, hs, ht⟩ | ⟨f, hs, ht⟩
  · simp only [hs, ht, hv.collidable_eq, hv.overlaps_eq]
    split
    · exact ⟨rfl, congrArg₂ encodePair hi hj, rfl, nofun, nofun⟩
    · split
      · exact ⟨hg.status, hg.result, hg.phase, fun _ => ⟨rfl, hi⟩, fun _ _ => ⟨by simp [hj], ha⟩⟩
      · exact ⟨hg.status, hg.result, hg.phase, fun _ => ⟨rfl, hi⟩, fun _ => nofun⟩
  · simp only [hs, ht, agreeBy]

theorem stepNextI_agree {s t : State} (hv : SamePort s t) (hg : SameProgress s t) (hp : s.phase = .scanning) :
    agreeBy SameProgress (stepNextI s) (stepNextI t) := by
  obtain ⟨-, hi⟩ := hg.cursor hp
  simp only [stepNextI, ← hi, ← hv.cap]
  split
  · exact ⟨hg.status, hg.result, hg.phase, fun _ => ⟨rfl, by simp [hi]⟩, fun _ => nofun⟩
  · exact ⟨rfl, hg.result, rfl, nofun, nofun⟩

theorem seqStep_agree {s t : State} (hv : SamePort s t) (hg : SameProgress s t) (hp : s.phase = .scanning) :
    agreeBy SameProgress (seqStep s) (seqStep t) := by
  obtain ⟨hl, -⟩ := hg.cursor hp
  simp only [seqStep, ← hl]
  split
  · exact stepOuter_agree hv hg hp
  · exact stepInner_agree hv hg hp ‹_›
  · exact stepNextI_agree hv hg hp

theorem runSeq_agree : ∀ (n : Nat) {s t : State}, SamePort s t → SameProgress s t →
    agreeBy SameProgress (runSeq n s) (runSeq n t)
  | 0, _, _, _, hg => hg
  | n + 1, s, t, hv, hg => by
    cases hp : s.phase with
    | idle =>
      rw [runSeq_of_idle hp, runSeq_of_idle (hg.phase.symm.trans hp)]
      exact hg
    | scanning =>
      simp only [runSeq, hp, ← hg.phase]
      obtain ⟨u, v, hs, ht, h⟩ | ⟨f, hs, ht⟩ | ⟨r, hs, ht⟩ := (seqStep_agree hv hg hp).cases
      · rw [hs, ht]
        exact runSeq_agree n (hv.frames (seqStep_frame hs) (seqStep_frame ht)) h
      · rw [hs, ht]; rfl
      · rw [hs, ht]; rfl

/-- With nothing overlapping it, the rest of a command is the rest of its scan (R61). -/
theorem runScan_quiet {s : State} (hq : s.overlap = Overlap.quiet) :
    runScan s = runSeq (scanBound s.cap.toNat) s := by
  rw [runScan, seqBudget_of_noReset (fun n hn => by simp [hq] at hn)]
  cases h : runSeq (scanBound s.cap.toNat) s with
  | next u => exact congrArg _ (closeCommand_of_quiet ((runSeq_frame h).quiet hq))
  | fault f => rfl
  | refused r => rfl

theorem runScan_agree {s t : State} (hv : SamePort s t) (hg : SameProgress s t) :
    agreeBy sameRegisters (runScan s) (runScan t) := by
  rw [runScan_quiet hv.quietLeft, runScan_quiet hv.quietRight, ← hv.cap]
  refine (runSeq_agree _ hv hg).imp fun u v hu hw h => ⟨h.status, h.result, ?_, h.phase⟩
  exact (hv.frames (runSeq_frame hu) (runSeq_frame hw)).cap

theorem exec_scan_last_quiet {s : State} (hq : s.overlap = Overlap.quiet) {n : Nat} (hn : n + 1 = s.cap.toNat) :
    exec (.scan n) s = .next (s.finish codeOk) := by
  rcases exec_scan_cases s n with ⟨hn', -⟩ | ⟨-, he⟩ | ⟨hn', -⟩
  · omega
  · simp [he, closeCommand_of_quiet, hq]
  · omega

/-- The scan begins at the same place in both, whatever the cursor and the latch held. -/
theorem sameProgress_enterScan {s t : State} (hst : s.status = t.status) (hres : s.result = t.result)
    (i : BitVec 8) : SameProgress (s.enterScan i) (t.enterScan i) :=
  ⟨hst, hres, rfl, fun _ => ⟨rfl, rfl⟩, fun _ => nofun⟩

/-- Blocks bound alike whose registers are the same reply alike to every command (R61). -/
theorem exec_agree {s t : State} (hv : SamePort s t) (hr : sameRegisters s t) (i : Instr) :
    agreeBy sameRegisters (exec i s) (exec i t) := by
  obtain ⟨hst, hres, hcap, hph⟩ := hr
  cases i with
  | cfg n =>
    rw [exec_cfg_quiet hv.quietLeft, exec_cfg_quiet hv.quietRight]
    split
    · exact ⟨rfl, hres, hcap, hph⟩
    · exact ⟨rfl, hres, rfl, hph⟩
  | scanNoOut n =>
    rw [exec_scanNoOut_quiet hv.quietLeft, exec_scanNoOut_quiet hv.quietRight, ← hcap]
    exact ⟨rfl, hres, hcap, hph⟩
  | scan n =>
    rcases Nat.lt_trichotomy (n + 1) s.cap.toNat with hn | hn | hn
    · rw [exec_scan_run hn, exec_scan_run (hcap ▸ hn)]
      exact runScan_agree (hv.frames (enterScan_frame s _) (enterScan_frame t _))
        (sameProgress_enterScan hst hres _)
    · rw [exec_scan_last_quiet hv.quietLeft hn, exec_scan_last_quiet hv.quietRight (hcap ▸ hn)]
      exact ⟨rfl, hres, hcap, hph⟩
    · rw [exec_scan_tooHigh_quiet hv.quietLeft (Nat.lt_succ_iff.1 hn),
        exec_scan_tooHigh_quiet hv.quietRight (hcap ▸ Nat.lt_succ_iff.1 hn)]
      exact ⟨rfl, hres, hcap, hph⟩

/-- Settles O60: the two scans go side by side, since a read shows the port's word and no layout. -/
theorem layoutNeverMattersToCommands : Obligations.LayoutNeverMattersToCommands := by
  intro i s₁ s₂ hp₁ hp₂ hq₁ hq₂ hst hres hcap hbias htouch hwrap halive hrec
  exact (sameReply_iff _ _).2
    (exec_agree ⟨hq₁, hq₂, hcap, hbias, htouch, hwrap, halive, hrec⟩ ⟨hst, hres, hcap, hp₁.trans hp₂.symm⟩ i)

theorem exec_storage_quiet {i : Instr} {s t : State} (hq : s.overlap = Overlap.quiet) (h : exec i s = .next t) :
    t.storage = s.storage := by
  rw [(exec_frame h).storage, hq, Overlap.quiet_writes, writeRecords_nil]

/-- Settles O32: the same parameters and storage present the same words, and no quiet command writes storage. -/
theorem answerIsAFunctionOfRegistersAndMemory : Obligations.AnswerIsAFunctionOfRegistersAndMemory := by
  intro i s₁ s₂ hp₁ hp₂ hq₁ hq₂ hst hres hcap hcfg hstor
  have hv : SamePort s₁ s₂ :=
    ⟨hq₁, hq₂, hcap, by rw [hcfg], by rw [hcfg], by rw [hcfg], by rw [hcfg], fun k _ => recordAt_congr hstor hcfg k⟩
  refine (sameAnswer_iff _ _).2
    ((exec_agree hv ⟨hst, hres, hcap, hp₁.trans hp₂.symm⟩ i).imp fun t u ht hu h => ⟨h, ?_⟩)
  rw [exec_storage_quiet hq₁ ht, exec_storage_quiet hq₂ hu, hstor]

/-! The sprite read port (R51, R54, R67). -/

/-- Settles O37: with nothing overlapping the command the port holds the one word, and is not silent. -/
theorem sprReadReturnsTheRecord : Obligations.SprReadReturnsTheRecord := by
  intro s k r hq hk hr
  rw [sprRead_quiet hq hk hr, State.countRead, hq, Overlap.afterRead_quiet, ← hq]

/-- A torn record is made of five records drawn, one for each field (R67). -/
theorem drawTorn_eq_some {vs : List (Option Record)} {fresh : Nat} {r : Record} (h : drawTorn vs fresh = some r) :
    ∃ a b d e f, drawHeld vs fresh 0 = some a ∧ drawHeld vs fresh 1 = some b ∧ drawHeld vs fresh 2 = some d ∧
      drawHeld vs fresh 3 = some e ∧ drawHeld vs fresh 4 = some f ∧
      r = packRecord (recX a) (recY b) (recVel d) (recFlags e) (recAnim f) := by
  unfold drawTorn at h
  split at h
  · rename_i a b d e f ha hb hd he hf
    exact ⟨a, b, d, e, f, ha, hb, hd, he, hf, (Option.some.inj h).symm⟩
  · exact absurd h nofun

/-- Where the storage tears, the port answers the one value the record held, or a torn record. -/
theorem portWord_tearing {s : State} (ht : s.cfg.tearing = true) (k : Nat) :
    portWord s k ∈ heldValues s k ∨ portWord s k = drawTorn (heldValues s k) s.fresh := by
  unfold portWord
  split
  · rename_i v hv
    exact .inl (by simp [hv])
  · exact .inr (if_pos ht)

/-- Settles O40: an answered read returns the port's word, which is one draw, or one draw for each field. -/
theorem overlappedReadIsADraw : Obligations.OverlappedReadIsADraw := by
  intro s t k r h
  obtain ⟨-, -, hr, -⟩ := sprRead_ok h
  refine ⟨fun ht => hr ▸ portWord_mem ht k.toNat, fun ht => ?_⟩
  rcases portWord_tearing ht k.toNat with hone | htorn
  · rw [hr] at hone
    exact ⟨⟨r, hone, rfl⟩, ⟨r, hone, rfl⟩, ⟨r, hone, rfl⟩, ⟨r, hone, rfl⟩, r, hone, rfl⟩
  · obtain ⟨a, b, d, e, f, ha, hb, hd, he, hf, rfl⟩ := drawTorn_eq_some (htorn.symm.trans hr)
    have hmem {i : Nat} {v : Record} (hv : drawHeld (heldValues s k.toNat) s.fresh i = some v) :
        some v ∈ heldValues s k.toNat := hv ▸ drawHeld_mem (heldValues_ne_nil s _) _ _
    exact ⟨⟨a, hmem ha, by simp⟩, ⟨b, hmem hb, by simp⟩, ⟨d, hmem hd, by simp⟩, ⟨e, hmem he, by simp⟩,
      f, hmem hf, by simp⟩

/-! Sprite storage (R50, R53). -/

theorem read_writeRecord_packed (m : Memory) {c : Config} (hl : c.layout = .packed) (k : Nat) {b : Nat} (r : Record)
    (hb : b < 5) : Memory.read (writeRecord m c k r) (c.sprBase + (5 * k + b)) = some (recByte r b) :=
  read_writeRecord_byte m (by rw [hl]; rfl) r hb (recAddr_packed hl k b)

/-- Settles O53: each byte of a written record reads back at its place, and the five make up the record. -/
theorem recordBytesInStorage : Obligations.RecordBytesInStorage := by
  refine ⟨fun m c k r hl => ?_, fun m c k r hok => ?_⟩
  · have byte {b : Nat} (hb : b < 5) := read_writeRecord_packed m hl k r hb
    exact ⟨byte (b := 0) (by omega), byte (b := 1) (by omega), byte (b := 2) (by omega), byte (b := 3) (by omega),
      byte (b := 4) (by omega)⟩
  · have place {b : Nat} (hb : b < 5) := recAddr_isSome hok k.isLt hb
    have byte {b a : Nat} (hb : b < 5) (ha : recAddr c k b = some a) := read_writeRecord_byte m hok r hb ha
    obtain ⟨a₀, h₀⟩ := place (b := 0) (by omega)
    obtain ⟨a₁, h₁⟩ := place (b := 1) (by omega)
    obtain ⟨a₂, h₂⟩ := place (b := 2) (by omega)
    obtain ⟨a₃, h₃⟩ := place (b := 3) (by omega)
    obtain ⟨a₄, h₄⟩ := place (b := 4) (by omega)
    exact ⟨readRecord_writeRecord_same m hok r fun b => place, a₀, a₁, a₂, a₃, a₄, h₀, h₁, h₂, h₃, h₄,
      byte (by omega) h₀, byte (by omega) h₁, byte (by omega) h₂, byte (by omega) h₃, byte (by omega) h₄⟩

/-- Settles O52: the write puts the record's five bytes at its places, which no other record shares. -/
theorem hostSpriteWriteIsSeen : Obligations.HostSpriteWriteIsSeen := by
  intro s k r rest hp hok hh
  refine ⟨(s.setHost rest).setStorage (writeRecord s.storage s.cfg k r), step_of_idle hp hh, rfl, ?_, ?_, ?_⟩
  · exact readRecord_writeRecord_same s.storage hok r fun b hb => recAddr_isSome hok k.isLt hb
  · exact fun k' hk' => recordAt_setStorage_other hok r hk'
  · exact fun a ha => read_writeRecord_outside s.storage s.cfg k r ha

@[simp] theorem Memory.read_cons_same (a : Nat) (b : Byte) (m : Memory) : Memory.read ((a, b) :: m) a = some b :=
  if_pos rfl

theorem Memory.read_cons_other {a a₂ : Nat} (b : Byte) (m : Memory) (h : a₂ ≠ a) :
    Memory.read ((a, b) :: m) a₂ = Memory.read m a₂ := if_neg h

/-- Below its first address canonical storage reads as nothing. -/
theorem Memory.read_cons_of_lt {a a₂ : Nat} {b : Byte} {m : Memory} (hwf : Memory.wf ((a, b) :: m)) (h : a₂ < a) :
    Memory.read ((a, b) :: m) a₂ = none := by
  refine Memory.read_none_of_lt fun q hq => ?_
  rcases List.mem_cons.1 hq with rfl | hq
  · exact h
  · exact Nat.lt_trans h ((List.pairwise_cons.1 hwf).1 q hq)

/-- Past its first address canonical storage does not list that address again. -/
theorem Memory.read_tail_self {a : Nat} {b : Byte} {m : Memory} (hwf : Memory.wf ((a, b) :: m)) :
    Memory.read m a = none := Memory.read_none_of_lt (List.pairwise_cons.1 hwf).1

/-- Storages in canonical form that read alike begin with the same byte at the same address. -/
theorem Memory.head_eq {a a' : Nat} {b b' : Byte} {m m' : Memory} (h : Memory.wf ((a, b) :: m))
    (h' : Memory.wf ((a', b') :: m')) (hread : ∀ x, Memory.read ((a, b) :: m) x = Memory.read ((a', b') :: m') x) :
    a = a' ∧ b = b' := by
  rcases Nat.lt_trichotomy a a' with hlt | rfl | hlt
  · have := hread a
    rw [read_cons_same, read_cons_of_lt h' hlt] at this
    exact absurd this nofun
  · have := hread a
    rw [read_cons_same, read_cons_same] at this
    exact ⟨rfl, Option.some.inj this⟩
  · have := hread a'
    rw [read_cons_same, read_cons_of_lt h hlt] at this
    exact absurd this nofun

/-- Settles O54, by induction on the two lists: equal heads, and tails that again read alike. -/
theorem storageFormIsUnique : Obligations.StorageFormIsUnique := by
  intro m
  induction m with
  | nil =>
    intro m' _ _ hread
    cases m' with
    | nil => rfl
    | cons p m' => exact absurd (hread p.1) (by rw [Memory.read_cons_same]; exact nofun)
  | cons p m ih =>
    intro m' h h' hread
    cases m' with
    | nil => exact absurd (hread p.1) (by rw [Memory.read_cons_same]; exact nofun)
    | cons p' m' =>
      obtain ⟨a, b⟩ := p
      obtain ⟨a', b'⟩ := p'
      obtain ⟨rfl, rfl⟩ := Memory.head_eq h h' hread
      rw [ih m' (List.pairwise_cons.1 h).2 (List.pairwise_cons.1 h').2 fun x => ?_]
      by_cases hx : x = a
      · rw [hx, Memory.read_tail_self h, Memory.read_tail_self h']
      · have hxa := hread x
        rwa [Memory.read_cons_other b m hx, Memory.read_cons_other b m' hx] at hxa

/-! The register port (R55 to R59). -/

/-- The four offsets of the window each reach their register (R55). -/
theorem portAccess_offset (c : Config) {off : Nat} {reg : PortReg} (h : portReg off = some reg) (hoff : off < 0x10) :
    portAccess c (c.regBase + off) 4 = .ok reg := by
  have hw : inWindow c (c.regBase + off) := ⟨Nat.le_add_right _ _, Nat.add_lt_add_left hoff _⟩
  rw [portAccess, if_pos hw, if_pos rfl, Nat.add_sub_cancel_left, h]

theorem step_read {s : State} {rest : List HostAction} {addr width : Nat} {reg : PortReg} (hp : s.phase = .idle)
    (hreg : portAccess s.cfg addr width = .ok reg) (hh : s.host = .read addr width :: rest) :
    step s = .next { s with host := rest, rdata := regValue s reg } := by
  rw [step_of_idle hp hh, hostAct, hostRead, setHost_cfg, hreg]
  rfl

theorem step_write_cmd {s : State} {rest : List HostAction} {addr width : Nat} {v : Word} {o : Overlap}
    (hp : s.phase = .idle) (hreg : portAccess s.cfg addr width = .ok .cmd)
    (hh : s.host = .write addr width v o :: rest) :
    step s = issueCommand v { s with host := rest, overlap := o } := by
  rw [step_of_idle hp hh, hostAct, hostWrite, setHost_cfg, hreg]
  rfl

/-- A write to a register other than CMD is ignored (R27). -/
theorem step_write_ignored {s : State} {rest : List HostAction} {addr width : Nat} {v : Word} {o : Overlap}
    {reg : PortReg} (hp : s.phase = .idle) (hreg : portAccess s.cfg addr width = .ok reg) (hne : reg ≠ .cmd)
    (hh : s.host = .write addr width v o :: rest) : step s = .next { s with host := rest } := by
  rw [step_of_idle hp hh, hostAct, hostWrite, setHost_cfg, hreg]
  cases reg with
  | cmd => exact absurd rfl hne
  | status => rfl
  | result => rfl
  | capacity => rfl

/-- Settles O45: the register at each of the four offsets, and what its read and its write come to. -/
theorem registerMap : Obligations.RegisterMap := by
  intro s rest v o hp
  have hcmd := portAccess_offset s.cfg (off := 0x0) (reg := .cmd) rfl (by omega)
  have hstatus := portAccess_offset s.cfg (off := 0x4) (reg := .status) rfl (by omega)
  have hresult := portAccess_offset s.cfg (off := 0x8) (reg := .result) rfl (by omega)
  have hcap := portAccess_offset s.cfg (off := 0xC) (reg := .capacity) rfl (by omega)
  exact ⟨step_read hp hcmd, step_read hp hstatus, step_read hp hresult, step_read hp hcap,
    step_write_ignored hp hstatus nofun, step_write_ignored hp hresult nofun, step_write_ignored hp hcap nofun,
    step_write_cmd hp hcmd⟩

/-- An access that reaches no register refuses the step, read or write. -/
theorem step_refused_of_access {s : State} {addr width : Nat} {q : Refusal} (hp : s.phase = .idle)
    (ha : portAccess s.cfg addr width = .error q) (rest : List HostAction) (v : Word) (o : Overlap) :
    (s.host = .read addr width :: rest → step s = .refused q) ∧
      (s.host = .write addr width v o :: rest → step s = .refused q) := by
  refine ⟨fun hh => ?_, fun hh => ?_⟩
  · rw [step_of_idle hp hh, hostAct, hostRead, setHost_cfg, ha]
  · rw [step_of_idle hp hh, hostAct, hostWrite, setHost_cfg, ha]

/-- Settles O46: such an access is not defined, and inside the window. -/
theorem otherAccessesAreRefused : Obligations.OtherAccessesAreRefused := by
  intro s rest addr width v o hp hw hother
  have hundef : ¬ definedAccess s.cfg addr width := fun ⟨h4, _, hm⟩ => hother.elim (· h4) (· hm)
  exact step_refused_of_access hp ((portAccess_undefined hundef).trans (by rw [if_pos hw])) rest v o

/-- Settles O47: such an access is not defined, and outside the window. -/
theorem accessesOutsideTheWindowAreRefused : Obligations.AccessesOutsideTheWindowAreRefused := by
  intro s rest addr width v o hp hout
  have hw : ¬ inWindow s.cfg addr := by
    rintro ⟨hlo, hhi⟩
    omega
  have hundef : ¬ definedAccess s.cfg addr width := fun ⟨_, hin, _⟩ => hw hin
  exact step_refused_of_access hp ((portAccess_undefined hundef).trans (by rw [if_neg hw])) rest v o

/-- A word is its four bytes joined, byte 0 least significant (R57). -/
theorem word_eq_append_bytes (w : Word) :
    w = w.extractLsb' 24 8 ++ w.extractLsb' 16 8 ++ w.extractLsb' 8 8 ++ w.extractLsb' 0 8 := by
  rw [BitVec.extractLsb'_append_extractLsb'_eq_extractLsb' (show 24 = 16 + 8 from rfl),
    BitVec.extractLsb'_append_extractLsb'_eq_extractLsb' (show 16 = 8 + 8 from rfl),
    BitVec.extractLsb'_append_extractLsb'_eq_extractLsb' (show 8 = 0 + 8 from rfl)]
  exact BitVec.extractLsb'_eq_self.symm

/-- Settles O55: the bytes of a register are those of its word. -/
theorem registerBytesAreLittleEndian : Obligations.RegisterBytesAreLittleEndian :=
  fun s reg => word_eq_append_bytes (regValue s reg)

end Sys2Proof.Machine

/-! The statements of 30_encoding.md: decoder and encoder are inverse to each other and follow the opcode map, a
reserved word fails alone, and a step runs the command its word decodes to. -/

namespace Sys2Proof.Machine

/-! Decoder and encoder (R70 to R73). -/

/-- Settles O1: the fields of the command's word read back, and OPND holds the whole of a well-formed operand. -/
theorem decodeOfEncode : Obligations.DecodeOfEncode := by
  intro i hi
  have hlt : i.operand < 65536 := Nat.lt_succ_of_le hi
  cases i with
  | cfg n => simpa [decode, encode, Instr.operand] using hlt
  | scan n => simpa [decode, encode, Instr.operand] using hlt
  | scanNoOut n => simpa [decode, encode, Instr.operand] using hlt

/-- OPND has 16 bits (R71). -/
theorem opndField_le (w : Word) : (opndField w).toNat ≤ 0xFFFF := Nat.le_of_lt_succ (opndField w).isLt

/-- A word with RSV = 0 is its other three fields packed (R71). -/
theorem packWord_fields {w : Word} (h : rsvField w = 0#11) :
    packWord (opField w) (BitVec.ofBool (outvField w)) (opndField w).toNat = w := by
  have houtv : BitVec.ofBool (outvField w) = w.extractLsb' 27 1 := by
    apply BitVec.eq_of_getLsbD_eq
    simp [outvField]
  rw [packWord, houtv, ← h, BitVec.ofNat_toNat, BitVec.setWidth_eq, opField, rsvField, opndField,
    BitVec.extractLsb'_append_extractLsb'_eq_extractLsb' (show 28 = 27 + 1 from rfl),
    BitVec.extractLsb'_append_extractLsb'_eq_extractLsb' (show 27 = 16 + 11 from rfl),
    BitVec.extractLsb'_append_extractLsb'_eq_extractLsb' (show 16 = 0 + 16 from rfl)]
  exact BitVec.extractLsb'_eq_self

/-- A word that decodes has RSV = 0, and the command carries its other fields (R73). -/
theorem fields_of_decode {w : Word} {i : Instr} (h : decode w = .ok i) :
    rsvField w = 0#11 ∧ i.operand = (opndField w).toNat ∧
      encode i = packWord (opField w) (BitVec.ofBool (outvField w)) (opndField w).toNat := by
  unfold decode at h
  split_ifs at h with hop houtv hrsv hop hrsv houtv <;> cases h
  all_goals exact ⟨hrsv, rfl, by simp [encode, hop, houtv]⟩

/-- Settles O2: the command carries the word's fields, and OPND has 16 bits. -/
theorem encodeOfDecode : Obligations.EncodeOfDecode := by
  intro w i h
  obtain ⟨hrsv, hopnd, henc⟩ := fields_of_decode h
  exact ⟨hopnd.trans_le (opndField_le w), henc.trans (packWord_fields hrsv)⟩

/-! The opcode map (R73). -/

/-- An operand of 16 bits stands in the low half of its word (R77). -/
theorem packWord_eq_or (op : BitVec 4) (o : BitVec 1) {n : Nat} (hn : n ≤ 0xFFFF) :
    packWord op o n = packWord op o 0 ||| BitVec.ofNat 32 n := by
  apply BitVec.eq_of_getLsbD_eq
  intro i hi
  have hhigh : 16 ≤ i → n.testBit i = false := fun h =>
    Nat.testBit_lt_two_pow (Nat.lt_of_le_of_lt hn (Nat.pow_le_pow_right (n := 2) (by decide) h))
  simp only [BitVec.getLsbD_or, getLsbD_packWord, BitVec.getLsbD_ofNat, hi]
  by_cases h : i < 16
  · simp [h]
  · simp [h, hhigh (Nat.not_lt.1 h)]

/-- The low half of a word is OPND (R71). -/
theorem and_low_half (w : Word) : w &&& 0x0000FFFF#32 = BitVec.ofNat 32 (opndField w).toNat := by
  apply BitVec.eq_of_toNat_eq
  calc (w &&& 0x0000FFFF#32).toNat = w.toNat &&& (2 ^ 16 - 1) := BitVec.toNat_and w _
    _ = (opndField w).toNat := by rw [Nat.and_two_pow_sub_one_eq_mod]; simp [opndField]
    _ = (BitVec.ofNat 32 (opndField w).toNat).toNat :=
      (Nat.mod_eq_of_lt (Nat.lt_trans (opndField w).isLt (by decide))).symm

/-- A word whose upper half is that of a packed word is packed, with its own OPND. -/
theorem eq_packWord_of_rowBits {w : Word} {op : BitVec 4} {o : BitVec 1}
    (h : w &&& 0xFFFF0000#32 = packWord op o 0) : w = packWord op o (opndField w).toNat := by
  calc w = w &&& (0xFFFF0000#32 ||| 0x0000FFFF#32) := BitVec.and_allOnes.symm
    _ = (w &&& 0xFFFF0000#32) ||| (w &&& 0x0000FFFF#32) := BitVec.and_or_distrib_left
    _ = packWord op o 0 ||| BitVec.ofNat 32 (opndField w).toNat := by rw [h, and_low_half]
    _ = packWord op o (opndField w).toNat := (packWord_eq_or op o (opndField_le w)).symm

theorem row_mem_opcodeMap (i : Instr) : i.row ∈ opcodeMap := by
  cases i <;> simp [Instr.row, opcodeMap]

theorem row_selects_encode (i : Instr) : i.row.selects (encode i) = true := by
  cases i with
  | cfg n => exact (Laws.EncodeRow.cfg n).1
  | scan n => exact (Laws.EncodeRow.scan n).1
  | scanNoOut n => exact (Laws.EncodeRow.scanNoOut n).1

/-- The rows share their mask and differ in their match, so no word selects two. -/
theorem row_unique {r r' : OpRow} {w : Word} (hr : r ∈ opcodeMap) (hr' : r' ∈ opcodeMap)
    (h : r.selects w = true) (h' : r'.selects w = true) : r = r' := by
  have hmask : ∀ q ∈ opcodeMap, q.mask = 0xFFFF0000#32 := by decide
  have hpat : ∀ q ∈ opcodeMap, ∀ q' ∈ opcodeMap, q.pattern = q'.pattern → q = q' := by decide
  rw [OpRow.selects, beq_iff_eq, hmask r hr] at h
  rw [OpRow.selects, beq_iff_eq, hmask r' hr'] at h'
  exact hpat r hr r' hr' (h.symm.trans h')

/-- A word that a command's row selects is the encoding of a command of that row (R73). -/
theorem encode_of_row_selects {i : Instr} {w : Word} (h : i.row.selects w = true) :
    ∃ j : Instr, j.WellFormed ∧ j.row = i.row ∧ w = encode j := by
  have hbits := eq_of_beq h
  cases i with
  | cfg n => exact ⟨.cfg _, opndField_le w, rfl, eq_packWord_of_rowBits hbits⟩
  | scan n => exact ⟨.scan _, opndField_le w, rfl, eq_packWord_of_rowBits hbits⟩
  | scanNoOut n => exact ⟨.scanNoOut _, opndField_le w, rfl, eq_packWord_of_rowBits hbits⟩

/-- The commands of one row decode from exactly the words it selects (R73). -/
theorem row_selects_iff (i : Instr) (w : Word) :
    i.row.selects w = true ↔ ∃ j, j.row = i.row ∧ decode w = .ok j := by
  constructor
  · intro h
    obtain ⟨j, hj, hrow, rfl⟩ := encode_of_row_selects h
    exact ⟨j, hrow, decodeOfEncode j hj⟩
  · rintro ⟨j, hrow, h⟩
    obtain ⟨-, rfl⟩ := encodeOfDecode w j h
    exact hrow ▸ row_selects_encode j

/-- The row SCAN of the source's table, with OUTV free, is the two rows SCAN and SCAN.NOOUT (R73). -/
theorem scanRow_iff (w : Word) : w &&& 0xF7FF0000#32 = 0x20000000#32 ↔
    (Instr.scan 0).row.selects w = true ∨ (Instr.scanNoOut 0).row.selects w = true := by
  simp only [Instr.row, OpRow.selects, beq_iff_eq]
  constructor
  · intro h
    have hsplit : w &&& 0xFFFF0000#32 = 0x20000000#32 ||| (w &&& BitVec.twoPow 32 27) := by
      rw [← h, ← BitVec.and_or_distrib_left]
      rfl
    rw [hsplit, BitVec.and_twoPow]
    cases w.getLsbD 27 with
    | true => exact .inl rfl
    | false => exact .inr rfl
  · have hmask : w &&& 0xF7FF0000#32 = w &&& 0xFFFF0000#32 &&& 0xF7FF0000#32 := by
      rw [BitVec.and_assoc]
      rfl
    rw [hmask]
    rintro (h | h) <;> rw [h] <;> rfl

/-- Each row of the opcode map is a command's (R73). -/
theorem exists_row_of_mem {r : OpRow} (hr : r ∈ opcodeMap) : ∃ i : Instr, i.row = r := by
  simp only [opcodeMap, List.mem_cons, List.not_mem_nil, or_false] at hr
  rcases hr with rfl | rfl | rfl
  · exact ⟨.cfg 0, rfl⟩
  · exact ⟨.scan 0, rfl⟩
  · exact ⟨.scanNoOut 0, rfl⟩

/-- A word is reserved exactly when it matches no row (R73, R74). -/
theorem decode_error_iff (w : Word) :
    (∃ e, decode w = .error e) ↔ ∀ r ∈ opcodeMap, r.selects w = false := by
  constructor
  · rintro ⟨e, he⟩ r hr
    obtain ⟨i, rfl⟩ := exists_row_of_mem hr
    refine Bool.eq_false_iff.2 fun h => ?_
    obtain ⟨j, -, hj⟩ := (row_selects_iff i w).1 h
    exact absurd (he.symm.trans hj) nofun
  · intro hnone
    cases h : decode w with
    | error e => exact ⟨e, rfl⟩
    | ok i =>
      have hsel := (row_selects_iff i w).2 ⟨i, rfl, h⟩
      exact absurd (hnone i.row (row_mem_opcodeMap i)) (by simp [hsel])

theorem exists_instr_iff {P : Instr → Prop} :
    (∃ i, P i) ↔ (∃ n, P (.cfg n)) ∨ (∃ n, P (.scan n)) ∨ ∃ n, P (.scanNoOut n) := by
  constructor
  · rintro ⟨i, hi⟩
    cases i with
    | cfg n => exact .inl ⟨n, hi⟩
    | scan n => exact .inr (.inl ⟨n, hi⟩)
    | scanNoOut n => exact .inr (.inr ⟨n, hi⟩)
  · rintro (⟨n, hn⟩ | ⟨n, hn⟩ | ⟨n, hn⟩) <;> exact ⟨_, hn⟩

/-- Settles O3: a word that decodes is selected by its command's row, no two rows select one word, a word no row
selects is reserved, and the row with OUTV free is the two SCAN rows. -/
theorem decodeFollowsOpcodeMap : Obligations.DecodeFollowsOpcodeMap := by
  refine ⟨fun w i h => ⟨row_mem_opcodeMap i, fun r hr => ⟨fun hsel => ?_, ?_⟩⟩,
    fun w e he => (decode_error_iff w).1 ⟨e, he⟩, decode_error_iff, fun w => (scanRow_iff w).trans ?_⟩
  · exact row_unique hr (row_mem_opcodeMap i) hsel ((row_selects_iff i w).2 ⟨i, rfl, h⟩)
  · rintro rfl
    exact (row_selects_iff i w).2 ⟨i, rfl, h⟩
  · rw [row_selects_iff, row_selects_iff]
    simp [exists_instr_iff, Instr.row, exists_or]

/-- Settles O4: the match of the command's row, and the operand below it. -/
theorem encodeIsTheAssemblersWord : Obligations.EncodeIsTheAssemblersWord :=
  fun _ hn => ⟨packWord_eq_or 0x1#4 0#1 hn, packWord_eq_or 0x2#4 1#1 hn, packWord_eq_or 0x2#4 0#1 hn⟩

/-- Settles O5: nine words of 95_test_vectors.md, decoded. -/
theorem specWordsDecode : Obligations.SpecWordsDecode := by
  unfold Obligations.SpecWordsDecode
  decide

/-- The decoder answers the three classes of R74 with an error, and no other word. -/
theorem reservedWord_iff (w : Word) : reservedWord w ↔ ∃ e, decode w = .error e := by
  unfold reservedWord decode
  by_cases h1 : opField w = 0x1#4
  · cases outvField w <;> by_cases hr : rsvField w = 0#11 <;> simp [h1, hr]
  · by_cases h2 : opField w = 0x2#4
    · cases outvField w <;> by_cases hr : rsvField w = 0#11 <;> simp [h2, hr]
    · simp [h1, h2]

/-- Settles O6: a word the decoder refuses raises FAILED_OP, and closing a quiet command changes nothing. -/
theorem reservedWordFailsAlone : Obligations.ReservedWordFailsAlone := by
  intro w s hw hq
  obtain ⟨e, he⟩ := (reservedWord_iff w).1 hw
  rcases issueCommand_cases w s with ⟨i, hi, -⟩ | ⟨-, -, h⟩
  · exact absurd (hi.symm.trans he) nofun
  · exact h.trans (congrArg _ (closeCommand_of_quiet (s := s.raiseStatus codeFailedOp) hq))

/-- Settles O49: the write reaches CMD and its word is the command's; withFetchWord places such a write. -/
theorem stepRunsTheDecodedCommand : Obligations.StepRunsTheDecodedCommand := by
  intro s w i hw
  have hissue (u : State) : issueCommand w u = exec i u := by rw [issueCommand, hw]
  have hcmd (c : Config) : portAccess c c.regBase 4 = .ok .cmd := portAccess_offset c (off := 0) rfl (by decide)
  have hfetch : BitVec.ofNat 32 (w.toNat % 2 ^ 32) = w := by
    rw [Nat.mod_eq_of_lt w.isLt, BitVec.ofNat_toNat, BitVec.setWidth_eq]
  refine ⟨fun o rest hp hh => (step_write_cmd hp (hcmd _) hh).trans (hissue _), ?_⟩
  rw [step_write_cmd (s := s.withFetchWord 32 w.toNat) rfl (hcmd _) rfl, hfetch, hissue]
  rfl

end Sys2Proof.Machine

/-! The statement of 40_config.md: what CFG does, and the word that issues it. -/

namespace Sys2Proof.Machine

/-- The word an assembler writes for a command issues that command (R77, R79). -/
theorem issueCommand_encode {i : Instr} (hi : i.WellFormed) (s : State) :
    issueCommand (encode i) s = exec i s := by
  rw [issueCommand, decodeOfEncode i hi]

/-- Settles O7: the answer of a quiet CFG on either side of 255, and the decoder reads CFG back from its word. -/
theorem cfgResult : Obligations.CfgResult := by
  intro n s hq
  refine ⟨fun hle => ?_, fun hlt => ?_, fun hn => ?_⟩
  · rw [exec_cfg_quiet hq, if_neg (Nat.not_lt.2 hle)]
    rfl
  · rw [exec_cfg_quiet hq, if_pos hlt]
    rfl
  · rw [← (encodeIsTheAssemblersWord n hn).1]
    exact issueCommand_encode (i := .cfg n) hn s

end Sys2Proof.Machine

/-! The statements of 41_scan.md: the pure functions of the scan, FirstHit, and what a SCAN comes to: its checks,
its answer over stable sprite memory, its reads, and its hits whatever overlaps it. -/

namespace Sys2Proof.Machine

/-! Which records take part, and their boxes (R101, R102). -/

/-- Settles O14: the alive bit is tested only under P_REQUIRE_ALIVE. -/
theorem collidableReadsTwoBits : Obligations.CollidableReadsTwoBits := by
  intro c r
  cases hq : c.requireAlive <;> simp [collidable, flagColl, flagAlive, hq]

theorem recX_toNat (r : Record) : (recX r).toNat = r.toNat % 256 := by
  simp [recX]

theorem recY_toNat (r : Record) : (recY r).toNat = r.toNat / 256 % 256 := by
  simp [recY, Nat.shiftRight_eq_div_pow]

theorem recFlags_toNat (r : Record) : (recFlags r).toNat = r.toNat / 2 ^ 24 % 256 := by
  simp [recFlags, Nat.shiftRight_eq_div_pow]

theorem flagWidth_toNat (f : BitVec 8) : (flagWidth f).toNat = f.toNat / 16 % 4 := by
  simp [flagWidth, Nat.shiftRight_eq_div_pow]

theorem flagHeight_toNat (f : BitVec 8) : (flagHeight f).toNat = f.toNat / 64 % 4 := by
  simp [flagHeight, Nat.shiftRight_eq_div_pow]

theorem biasOf_bounds (c : Config) : 1 ≤ biasOf c ∧ biasOf c ≤ 2 := by
  unfold biasOf
  cases c.extentBias <;> decide

/-- A box has an 8-bit corner and is 1 to 5 wide and high (R102). -/
theorem boxOf_bounds (c : Config) (r : Record) :
    (boxOf c r).x0 < 256 ∧ (boxOf c r).y0 < 256 ∧
      1 ≤ (boxOf c r).w ∧ (boxOf c r).w ≤ 5 ∧ 1 ≤ (boxOf c r).h ∧ (boxOf c r).h ≤ 5 := by
  have hb := biasOf_bounds c
  have hw := (flagWidth (recFlags r)).isLt
  have hh := (flagHeight (recFlags r)).isLt
  simp only [boxOf]
  exact ⟨(recX r).isLt, (recY r).isLt, by omega, by omega, by omega, by omega⟩

/-- Settles O15: the flags are bits [31:24] of the record, the extent fields their bits [5:4] and [7:6]. -/
theorem boxFollowsFlags : Obligations.BoxFollowsFlags := by
  intro c r
  obtain ⟨-, -, hextents⟩ := boxOf_bounds c r
  refine ⟨recX_toNat r, recY_toNat r, ?_, ?_, hextents⟩
  · simp only [boxOf, flagWidth_toNat, recFlags_toNat]; omega
  · simp only [boxOf, flagHeight_toNat, recFlags_toNat]; omega

/-! The overlap test (R103, R104). -/

theorem boxEnd_wide {c : Config} (h : c.extentWrap = .wide) (p len : Nat) : boxEnd c p len = p + len := by
  simp only [boxEnd, h]

theorem boxEnd_wrap8 {c : Config} (h : c.extentWrap = .wrap8) (p len : Nat) :
    boxEnd c p len = (p + len) % 256 := by
  simp only [boxEnd, h]

theorem axisOverlap_exclusive {c : Config} (h : c.touch = .exclusive) (a0 alen b0 blen : Nat) :
    axisOverlap c a0 alen b0 blen = true ↔ a0 < boxEnd c b0 blen ∧ b0 < boxEnd c a0 alen := by
  simp only [axisOverlap, h, Bool.and_eq_true, decide_eq_true_eq]

theorem axisOverlap_inclusive {c : Config} (h : c.touch = .inclusive) (a0 alen b0 blen : Nat) :
    axisOverlap c a0 alen b0 blen = true ↔ a0 ≤ boxEnd c b0 blen ∧ b0 ≤ boxEnd c a0 alen := by
  simp only [axisOverlap, h, Bool.and_eq_true, decide_eq_true_eq]

/-- Under either P_TOUCH an overlap on an axis needs each start at or before the other's end. -/
theorem axisOverlap_le {c : Config} {a0 alen b0 blen : Nat} (h : axisOverlap c a0 alen b0 blen = true) :
    a0 ≤ boxEnd c b0 blen ∧ b0 ≤ boxEnd c a0 alen := by
  cases ht : c.touch with
  | exclusive => exact ((axisOverlap_exclusive ht ..).1 h).imp Nat.le_of_lt Nat.le_of_lt
  | inclusive => exact (axisOverlap_inclusive ht ..).1 h

theorem axisOverlap_comm (c : Config) (a0 alen b0 blen : Nat) :
    axisOverlap c a0 alen b0 blen = axisOverlap c b0 blen a0 alen := by
  unfold axisOverlap
  split <;> exact Bool.and_comm _ _

theorem overlaps_iff (c : Config) (a b : Record) :
    overlaps c a b = true ↔
      axisOverlap c (boxOf c a).x0 (boxOf c a).w (boxOf c b).x0 (boxOf c b).w = true ∧
        axisOverlap c (boxOf c a).y0 (boxOf c a).h (boxOf c b).y0 (boxOf c b).h = true := by
  rw [overlaps, Bool.and_eq_true]

/-- Settles O19: the test of one axis treats its two boxes alike. -/
theorem overlapIsSymmetric : Obligations.OverlapIsSymmetric := by
  intro c a b
  rw [overlaps, axisOverlap_comm c (boxOf c a).x0, axisOverlap_comm c (boxOf c a).y0, overlaps]

/-- Settles O16: boxes that do not overlap miss each other on x or on y, where one ends before the other. -/
theorem boxesApartOnOneAxis : Obligations.BoxesApartOnOneAxis := by
  intro c a b hw
  refine ⟨fun ht => ?_, fun ht => ?_⟩
  · rw [← Bool.not_eq_true, overlaps_iff]
    simp only [axisOverlap_exclusive ht, boxEnd_wide hw]
    omega
  · rw [← Bool.not_eq_true, overlaps_iff]
    simp only [axisOverlap_inclusive ht, boxEnd_wide hw]
    omega

/-- Two half-open intervals that are not empty meet exactly when they have a point in common: the later of the
two starts. -/
theorem axisOverlap_iff_common_point {c : Config} (hw : c.extentWrap = .wide) (ht : c.touch = .exclusive)
    {a0 alen b0 blen : Nat} (ha : 1 ≤ alen) (hb : 1 ≤ blen) :
    axisOverlap c a0 alen b0 blen = true ↔
      ∃ x, (a0 ≤ x ∧ x < a0 + alen) ∧ b0 ≤ x ∧ x < b0 + blen := by
  rw [axisOverlap_exclusive ht, boxEnd_wide hw, boxEnd_wide hw]
  refine ⟨fun h => ⟨max a0 b0, by omega, by omega⟩, ?_⟩
  rintro ⟨x, hxa, hxb⟩
  omega

/-- Settles O17: a cell in both boxes is a point common to both on each axis. -/
theorem wideExclusiveOverlapIsASharedCell : Obligations.WideExclusiveOverlapIsASharedCell := by
  intro c a b hw ht
  obtain ⟨-, -, haw, -, hah, -⟩ := boxOf_bounds c a
  obtain ⟨-, -, hbw, -, hbh, -⟩ := boxOf_bounds c b
  rw [overlaps_iff, axisOverlap_iff_common_point hw ht haw hbw, axisOverlap_iff_common_point hw ht hah hbh]
  constructor
  · rintro ⟨⟨x, ⟨hxa, hxa'⟩, hxb, hxb'⟩, y, ⟨hya, hya'⟩, hyb, hyb'⟩
    exact ⟨x, y, ⟨hxa, hxa', hya, hya'⟩, hxb, hxb', hyb, hyb'⟩
  · rintro ⟨x, y, ⟨hxa, hxa', hya, hya'⟩, hxb, hxb', hyb, hyb'⟩
    exact ⟨⟨x, ⟨hxa, hxa'⟩, hxb, hxb'⟩, y, ⟨hya, hya'⟩, hyb, hyb'⟩

/-- Settles O18: the wrapped end is at most 4, so the other box would have to start there, and could not reach
this one, which starts at 251 or above. -/
theorem wrappedBoxOverlapsNothing : Obligations.WrappedBoxOverlapsNothing := by
  intro c a0 alen b0 blen hw ha hb _ halen _ hblen hwrap
  have hapart : axisOverlap c a0 alen b0 blen = false := by
    refine Bool.eq_false_iff.2 fun h => ?_
    have hle := axisOverlap_le h
    rw [boxEnd_wrap8 hw, boxEnd_wrap8 hw] at hle
    omega
  exact ⟨hapart, (axisOverlap_comm ..).trans hapart⟩

/-- A box meets itself on an axis exactly when it starts before its own end, under either P_TOUCH. -/
theorem axisOverlap_self_iff {c : Config} {p len : Nat} (hne : boxEnd c p len ≠ p) :
    axisOverlap c p len p len = true ↔ p < boxEnd c p len := by
  cases ht : c.touch with
  | exclusive => rw [axisOverlap_exclusive ht, and_self]
  | inclusive => rw [axisOverlap_inclusive ht, and_self]; omega

theorem axisOverlap_self_wide {c : Config} (hw : c.extentWrap = .wide) {p len : Nat} (h : 1 ≤ len) :
    axisOverlap c p len p len = true := by
  have hend := boxEnd_wide hw p len
  exact (axisOverlap_self_iff (by omega)).2 (by omega)

theorem axisOverlap_self_wrap8 {c : Config} (hw : c.extentWrap = .wrap8) {p len : Nat} (hp : p < 256)
    (h : 1 ≤ len) (h5 : len ≤ 5) : axisOverlap c p len p len = true ↔ p + len < 256 := by
  have hend := boxEnd_wrap8 hw p len
  rw [axisOverlap_self_iff (by omega)]
  omega

/-- Settles O20: an end that wraps lies before the start, and any other end after it. -/
theorem selfOverlap : Obligations.SelfOverlap := by
  intro c a
  obtain ⟨hx, hy, hw, hw5, hh, hh5⟩ := boxOf_bounds c a
  refine ⟨fun hc => ?_, fun hc => ?_⟩
  · exact (overlaps_iff c a a).2 ⟨axisOverlap_self_wide hc hw, axisOverlap_self_wide hc hh⟩
  · rw [overlaps_iff, axisOverlap_self_wrap8 hc hx hw hw5, axisOverlap_self_wrap8 hc hy hh hh5]

/-! FirstHit (R105). -/

/-- The test `hits` gives a candidate pair: both records take part and their boxes overlap. -/
theorem candidate_iff_hits {c : Config} {mem : Nat → Record} {start cap i j : Nat} :
    candidate c mem start cap i j ↔ start ≤ i ∧ i < j ∧ j < cap ∧ hits c (mem i) (mem j) = true := by
  simp only [candidate, hits, Bool.and_eq_true]

/-- What FirstHit finds in one row: the least partner of `i` above it. -/
def rowHit (c : Config) (mem : Nat → Record) (cap i : Nat) : Option (Nat × Nat) :=
  ((List.range' (i + 1) (cap - 1 - i)).find? fun j => hits c (mem i) (mem j)).map fun j => (i, j)

theorem firstHit_eq_rows (c : Config) (mem : Nat → Record) (start cap : Nat) :
    firstHit c mem start cap = (List.range' start (cap - 1 - start)).findSome? (rowHit c mem cap) := by
  unfold firstHit
  congr 1
  funext i
  unfold rowHit hits
  cases collidable c (mem i) <;> simp

theorem rowHit_eq_some {c : Config} {mem : Nat → Record} {cap i a b : Nat} (h : rowHit c mem cap i = some (a, b)) :
    a = i ∧ i < b ∧ b < cap ∧ hits c (mem i) (mem b) = true ∧
      ∀ j, i < j → j < b → hits c (mem i) (mem j) = false := by
  simp only [rowHit, Option.map_eq_some_iff, List.find?_range'_eq_some, List.mem_range'_1, Prod.mk.injEq] at h
  obtain ⟨j, ⟨hhit, hj, hleast⟩, rfl, rfl⟩ := h
  exact ⟨rfl, by omega, by omega, hhit, fun k hk hkj => by simpa using hleast k hk hkj⟩

theorem rowHit_eq_none {c : Config} {mem : Nat → Record} {cap i : Nat} (h : rowHit c mem cap i = none) {j : Nat}
    (hij : i < j) (hj : j < cap) : hits c (mem i) (mem j) = false := by
  simp only [rowHit, Option.map_eq_none_iff, List.find?_range'_eq_none] at h
  simpa using h j hij (by omega)

/-- A search up a range stops at the first index that answers. -/
theorem findSome?_range'_eq_some {α : Type} {f : Nat → Option α} {start n : Nat} {b : α}
    (h : (List.range' start n).findSome? f = some b) :
    ∃ i, start ≤ i ∧ f i = some b ∧ ∀ k, start ≤ k → k < i → f k = none := by
  obtain ⟨l, i, r, hl, hi, hnone⟩ := List.findSome?_eq_some_iff.1 h
  obtain ⟨m, -, rfl, hr⟩ := List.range'_eq_append_iff.1 hl
  obtain ⟨rfl, -, -⟩ := List.range'_eq_cons_iff.1 hr.symm
  exact ⟨start + m, Nat.le_add_right _ _, by simpa using hi, fun k hk hkm => hnone k (List.mem_range'_1.2 ⟨hk, hkm⟩)⟩

/-- The pair `(i, j)` is at or below `(i', j')` in scan order: i ascending, then j ascending. -/
abbrev pairLe (i j i' j' : Nat) : Prop := i < i' ∨ (i = i' ∧ j ≤ j')

theorem firstHit_eq_some {c : Config} {mem : Nat → Record} {start cap i j : Nat}
    (h : firstHit c mem start cap = some (i, j)) :
    candidate c mem start cap i j ∧ ∀ i' j', candidate c mem start cap i' j' → pairLe i j i' j' := by
  rw [firstHit_eq_rows] at h
  obtain ⟨k, hk, hrow, hbefore⟩ := findSome?_range'_eq_some h
  obtain ⟨rfl, hij, hj, hhit, hleast⟩ := rowHit_eq_some hrow
  refine ⟨candidate_iff_hits.2 ⟨hk, hij, hj, hhit⟩, fun i' j' hc => ?_⟩
  obtain ⟨hi', hij', hj', hhit'⟩ := candidate_iff_hits.1 hc
  rcases Nat.lt_trichotomy i i' with hlt | rfl | hlt
  · exact .inl hlt
  · refine .inr ⟨rfl, Nat.not_lt.1 fun hlt => ?_⟩
    exact absurd hhit' (by simp [hleast j' hij' hlt])
  · exact absurd hhit' (by simp [rowHit_eq_none (hbefore i' hi' hlt) hij' hj'])

theorem firstHit_eq_none {c : Config} {mem : Nat → Record} {start cap : Nat}
    (h : firstHit c mem start cap = none) (i j : Nat) : ¬ candidate c mem start cap i j := by
  intro hc
  obtain ⟨hi, hij, hj, hhit⟩ := candidate_iff_hits.1 hc
  rw [firstHit_eq_rows, List.findSome?_eq_none_iff] at h
  have hrow := h i (List.mem_range'_1.2 ⟨hi, by omega⟩)
  exact absurd hhit (by simp [rowHit_eq_none hrow hij hj])

theorem firstHit_eq_none_iff {c : Config} {mem : Nat → Record} {start cap : Nat} :
    firstHit c mem start cap = none ↔ ∀ i j, ¬ candidate c mem start cap i j := by
  refine ⟨firstHit_eq_none, fun h => ?_⟩
  cases hf : firstHit c mem start cap with
  | none => rfl
  | some p => exact absurd (firstHit_eq_some hf).1 (h p.1 p.2)

/-- Settles O21: the loop's answer is a least candidate, of which there is at most one. -/
theorem firstHitIsTheLeastPair : Obligations.FirstHitIsTheLeastPair := by
  refine fun c mem start cap => ⟨fun i j => ⟨firstHit_eq_some, ?_⟩, firstHit_eq_none_iff⟩
  rintro ⟨hc, hleast⟩
  cases hf : firstHit c mem start cap with
  | none => exact absurd hc (firstHit_eq_none hf i j)
  | some p =>
    obtain ⟨i', j'⟩ := p
    obtain ⟨hc', hleast'⟩ := firstHit_eq_some hf
    have h := hleast i' j' hc'
    have h' := hleast' i j hc
    obtain ⟨rfl, rfl⟩ : i' = i ∧ j' = j := by omega
    rfl

/-! The checks of a SCAN (R100). -/

/-- Settles O9: the start check comes before all else in both forms. -/
theorem scanStartTooHighFails : Obligations.ScanStartTooHighFails := by
  intro n s hq hn
  refine ⟨exec_scan_tooHigh_quiet hq hn, ?_⟩
  rw [exec_scanNoOut_quiet hq, if_pos hn]
  rfl

/-- Settles O10: the two checks of a quiet SCAN.NOOUT, and the decoder reads the command back from its word. -/
theorem scanNoOutResult : Obligations.ScanNoOutResult := by
  intro n s hq
  refine ⟨exec_scanNoOut_quiet hq n, fun hn => ?_⟩
  obtain ⟨-, -, hword⟩ := encodeIsTheAssemblersWord n hn
  rw [← hword]
  exact issueCommand_encode (i := .scanNoOut n) hn s

/-- Settles O11: a start at the last index ends the command before the sequencer begins. -/
theorem scanFromLastIndexIsEmpty : Obligations.ScanFromLastIndexIsEmpty :=
  fun _ _ hq hn => exec_scan_last_quiet hq hn

/-! The answer of a SCAN over stable sprite memory (R106, R107, R111 to R113). -/

/-- A pair of indices below CAP is the pair of the two 8-bit numbers RESULT holds. -/
theorem encodePair_eq_iff {a b : Nat} (ha : a < 256) (hb : b < 256) (i j : BitVec 8) :
    encodePair (BitVec.ofNat 8 a) (BitVec.ofNat 8 b) = encodePair i j ↔ (a, b) = (i.toNat, j.toNat) := by
  constructor
  · intro h
    obtain ⟨rfl, rfl⟩ := encodePair_inj h
    simp [Nat.mod_eq_of_lt ha, Nat.mod_eq_of_lt hb]
  · intro h
    obtain ⟨rfl, rfl⟩ := Prod.mk.inj h
    simp

/-- A scan reports `(i, j)` exactly when FirstHit is `(i, j)`. -/
theorem ScanAnswer.hit_iff {mem : Nat → Record} {n : Nat} {s t : State} (h : ScanAnswer mem n s t)
    (i j : BitVec 8) : (t.status = 0x10 ∧ t.result = encodePair i j) ↔
      firstHit s.cfg mem n s.cap.toNat = some (i.toNat, j.toNat) := by
  cases hf : firstHit s.cfg mem n s.cap.toNat with
  | none =>
    obtain ⟨hst, -, -⟩ := h.noHit hf
    simp [hst]
  | some p =>
    obtain ⟨hst, hres, -, hij, hj, -⟩ := h.hit p.1 p.2 hf
    have hcap := s.cap.isLt
    rw [hst, hres, encodePair_eq_iff (by omega) (by omega)]
    simp

/-- A scan answers OK exactly when FirstHit is None. -/
theorem ScanAnswer.ok_iff {mem : Nat → Record} {n : Nat} {s t : State} (h : ScanAnswer mem n s t) :
    t.status = 0x00 ↔ firstHit s.cfg mem n s.cap.toNat = none := by
  refine ⟨fun hst => ?_, fun hf => (h.noHit hf).1⟩
  cases hf : firstHit s.cfg mem n s.cap.toNat with
  | none => rfl
  | some p =>
    obtain ⟨hhit, -⟩ := h.hit p.1 p.2 hf
    exact absurd (hst.symm.trans hhit) (by decide)

theorem ScanAnswer.result_of_ok {mem : Nat → Record} {n : Nat} {s t : State} (h : ScanAnswer mem n s t)
    (hst : t.status = 0x00) : t.result = s.result := by
  obtain ⟨-, hres, -⟩ := h.noHit (h.ok_iff.1 hst)
  exact hres

/-- Settles O22: the sequencer's row by row run over stable memory is FirstHit's loop, and RESULT holds the pair
it stops at without loss. -/
theorem scanReportsFirstHit : Obligations.ScanReportsFirstHit := by
  intro s mem n hp hq hn hm
  obtain ⟨t, ht, ha⟩ := exec_scan_answer hp hq hn hm
  exact ⟨t, ht, ha.hit_iff, ha.ok_iff, ha.result_of_ok, ha.frame, fun a => by rw [exec_storage_quiet hq ht]⟩

/-- Settles O23: with no candidate FirstHit is None. -/
theorem scanWithoutAPairIsOk : Obligations.ScanWithoutAPairIsOk := by
  intro s mem n hp hq hn hm hnone
  obtain ⟨t, ht, ha⟩ := exec_scan_answer hp hq hn hm
  have hok := ha.ok_iff.2 (firstHit_eq_none_iff.2 hnone)
  exact ⟨t, ht, hok, ha.result_of_ok hok, ha.frame⟩

/-- Settles O25: a candidate pair is two collidable indices. -/
theorem scanOfOneCollidableIsOk : Obligations.ScanOfOneCollidableIsOk := by
  intro s mem n k hp hq hn hm hone
  obtain ⟨t, ht, hok, hres, -⟩ := scanWithoutAPairIsOk s mem n hp hq hn hm fun i j hc => by
    obtain ⟨hi, hij, hj, hci, hcj, -⟩ := hc
    have hik := hone i hi (by omega) hci
    have hjk := hone j (by omega) hj hcj
    omega
  exact ⟨t, ht, hok, hres⟩

/-- Settles O26: the counts of the row by row run. -/
theorem scanStopsAtTheFirstHit : Obligations.ScanStopsAtTheFirstHit := by
  intro s mem n hp hq hn hm
  obtain ⟨t, ht, ha⟩ := exec_scan_answer hp hq hn hm
  refine ⟨t, ht, fun i j hf => ?_, fun hf => ?_⟩
  · obtain ⟨hst, hres, -, -, -, hreads⟩ := ha.hit i j hf
    exact ⟨hst, hres, hreads⟩
  · obtain ⟨hst, -, hreads⟩ := ha.noHit hf
    exact ⟨hst, hreads⟩

/-- Settles O30: both scans answer by FirstHit, whose two tests are the same on both sides. -/
theorem scanDependsOnlyOnWhatItReads : Obligations.ScanDependsOnlyOnWhatItReads := by
  intro s₁ s₂ mem₁ mem₂ n hp₁ hp₂ hq₁ hq₂ hcap hn hbias htouch hwrap halive hm₁ hm₂ hsame
  obtain ⟨t₁, ht₁, ha₁⟩ := exec_scan_answer hp₁ hq₁ hn hm₁
  obtain ⟨t₂, ht₂, ha₂⟩ := exec_scan_answer hp₂ hq₂ (hcap ▸ hn) hm₂
  have hfirst : firstHit s₁.cfg mem₁ n s₁.cap.toNat = firstHit s₂.cfg mem₂ n s₂.cap.toNat := by
    rw [← hcap, firstHit_sameForScan hsame]
    exact firstHit_congr (fun _ _ _ => collidable_congr halive _)
      fun _ _ _ _ _ => overlaps_congr hbias htouch hwrap _ _
  refine ⟨t₁, t₂, ht₁, ht₂, ?_⟩
  cases hf : firstHit s₁.cfg mem₁ n s₁.cap.toNat with
  | none =>
    obtain ⟨hst₁, hres₁, -⟩ := ha₁.noHit hf
    obtain ⟨hst₂, hres₂, -⟩ := ha₂.noHit (hfirst.symm.trans hf)
    exact ⟨hst₁.trans hst₂.symm, fun h => absurd (hst₁.symm.trans h) (by decide), fun _ => ⟨hres₁, hres₂⟩⟩
  | some p =>
    obtain ⟨hst₁, hres₁, -⟩ := ha₁.hit p.1 p.2 hf
    obtain ⟨hst₂, hres₂, -⟩ := ha₂.hit p.1 p.2 (hfirst.symm.trans hf)
    exact ⟨hst₁.trans hst₂.symm, fun _ => hres₁.trans hres₂.symm, fun h => absurd (hst₁.symm.trans h) (by decide)⟩

/-- A stretch of micro-steps from a SCANNING state to an IDLE one, with nothing overlapping, is the rest of its
command. -/
theorem runScan_of_stretch {k : Nat} {s t : State} (hq : s.overlap = Overlap.quiet) (h : Stretch k s t)
    (ht : t.phase = .idle) : runScan s = .next t := by
  have hrun : runSeq k s = .next t := by simpa [runSeq] using h.run 0
  rw [runScan_quiet hq, runSeq_bound ht hrun]

/-- The rest of a row up to its first hit, `d` partners on: it needs no record past the hit (R106). -/
theorem row_to_hit {mem : Nat → Record} {j : Nat} : ∀ (d : Nat) {s : State}, s.phase = .scanning →
    s.label = .inner → s.overlap = Overlap.quiet → s.curJ.toNat + d = j → j < s.cap.toNat →
    memAgrees s mem s.curJ.toNat (j + 1) →
    (∀ k, s.curJ.toNat ≤ k → k < j → (collidable s.cfg (mem k) && overlaps s.cfg s.aLat (mem k)) = false) →
    (collidable s.cfg (mem j) && overlaps s.cfg s.aLat (mem j)) = true →
    ∃ t, Stretch (d + 1) s t ∧ t.phase = .idle ∧ t.status = 0x10 ∧
      t.result = encodePair s.curI (BitVec.ofNat 8 j) ∧ t.reads = s.reads + (d + 1)
  | d, s, hp, hl, hq, hd, hj, hm, hmiss, hhit => by
    have hlt : s.curJ < s.cap := by show s.curJ.toNat < s.cap.toNat; omega
    have hr := sprRead_quiet hq hlt (hm _ (Nat.le_refl _) (by omega))
    cases d with
    | zero =>
      obtain rfl : s.curJ.toNat = j := hd
      have h1 : seqStep s = .next s.countRead.reportHit := by simp [seqStep, hl, stepInner, hr, hhit]
      exact ⟨_, Stretch.one hp h1 (countRead_quiet hq), rfl, rfl, by simp [State.reportHit], rfl⟩
    | succ d =>
      have h1 : seqStep s = .next s.countRead.nextJ := by
        simp [seqStep, hl, stepInner, hr, hmiss _ (Nat.le_refl _) (by omega),
          show s.curJ.toNat + 1 < s.cap.toNat by omega]
      have hS := Stretch.one hp h1 (countRead_quiet hq)
      have hcurJ : s.countRead.nextJ.curJ.toNat = s.curJ.toNat + 1 := toNat_add_one hlt
      obtain ⟨t, hT, hidle, hst, hres, hreads⟩ := row_to_hit (mem := mem) (j := j) d (s := s.countRead.nextJ) hp rfl
        (hS.quiet.trans hq) (by omega) hj
        (memAgrees_mono (memAgrees_frame hm hS.frame) (by omega) (Nat.le_refl _))
        (fun k hk => hmiss k (by omega)) hhit
      refine ⟨t, Nat.add_comm 1 (d + 1) ▸ hS.trans hT, hidle, hst, hres, ?_⟩
      rw [hreads, nextJ_reads, countRead_reads]
      omega

/-- OUTER reads the record at CUR_I and enters its row where the record takes part (R110). -/
theorem stretch_enterInner {s : State} {a : Record} (hp : s.phase = .scanning) (hl : s.label = .outer)
    (hq : s.overlap = Overlap.quiet) (hlt : s.curI < s.cap) (hr : recordAt s s.curI.toNat = some a)
    (hc : collidable s.cfg a = true) : Stretch 1 s (s.countRead.enterInner a) := by
  refine Stretch.one hp ?_ (countRead_quiet hq)
  simp [seqStep, hl, stepOuter, sprRead_quiet hq hlt hr, hc]

/-- A start below CAP fits in CUR_I. -/
theorem toNat_start {n : Nat} {c : BitVec 8} (h : n < c.toNat) : (BitVec.ofNat 8 n).toNat = n :=
  (BitVec.toNat_ofNat n 8).trans (Nat.mod_eq_of_lt (Nat.lt_trans h c.isLt))

/-- Settles O27: the scan reads record n, enters its row, and stops at j. -/
theorem recordsPastTheHitAreNotNeeded : Obligations.RecordsPastTheHitAreNotNeeded := by
  intro s mem n j hq hnj hj hm hcn hcj hover hmiss
  have hn := toNat_start (Nat.lt_trans hnj hj)
  have hnlt : BitVec.ofNat 8 n < s.cap := by show (BitVec.ofNat 8 n).toNat < s.cap.toNat; omega
  have hrec : recordAt s (BitVec.ofNat 8 n).toNat = some (mem n) := by
    rw [hn]; exact hm n (Nat.le_refl n) (by omega)
  have hS := stretch_enterInner (s := s.enterScan (BitVec.ofNat 8 n)) rfl rfl hq hnlt hrec hcn
  have hcurJ : ((s.enterScan (BitVec.ofNat 8 n)).countRead.enterInner (mem n)).curJ.toNat = n + 1 :=
    (toNat_add_one hnlt).trans (by rw [hn])
  obtain ⟨t, hT, hidle, hst, hres, hreads⟩ := row_to_hit (mem := mem) (j := j) (j - n - 1)
    (s := (s.enterScan (BitVec.ofNat 8 n)).countRead.enterInner (mem n)) rfl rfl (hS.quiet.trans hq) (by omega) hj
    (memAgrees_mono (memAgrees_frame hm ((enterScan_frame s _).trans hS.frame)) (by omega) (Nat.le_refl _))
    (fun k hk hkj => hmiss k (by omega) hkj) (by rw [Bool.and_eq_true]; exact ⟨hcj, hover⟩)
  refine ⟨t, ?_, hst, hres, ?_⟩
  · rw [exec_scan_run (by omega)]
    exact runScan_of_stretch hq (hS.trans hT) hidle
  · rw [hreads, enterInner_reads, countRead_reads, enterScan_reads]
    omega

/-! What a SCAN comes to from every state, whatever overlaps it (R67, R108, R109, R114, R115). -/

/-- A reset during a command leaves no hit in STATUS, so a hit was there when the command was closed. -/
theorem closeCommand_hit {s : State} (h : s.closeCommand.status = 0x10) :
    s.status = 0x10 ∧ s.closeCommand.result = s.result ∧ s.closeCommand.phase = s.phase := by
  rcases closeCommand_cases s with hc | hc
  · rw [hc] at h ⊢
    exact ⟨h, rfl, rfl⟩
  · rw [hc, resetBlock_status] at h
    exact absurd h (by decide)

/-- RESULT holds a pair I < J of a scan from `n` over `cap` records (R108). -/
def reportedPair (n cap : Nat) (v : BitVec 16) : Prop :=
  ∃ i j : BitVec 8, v = encodePair i j ∧ n ≤ i.toNat ∧ i.toNat < j.toNat ∧ j.toNat < cap

/-- The micro-step that ends a scan with a hit reports the cursor, whose bounds make it a legal pair. -/
theorem seqStep_hit {n : Nat} {s t : State} (hp : s.phase = .scanning) (hs : ScanFrom n s)
    (h : seqStep s = .next t) (ht : t.phase = .idle) (hst : t.status = 0x10) :
    reportedPair n s.cap.toNat t.result := by
  have hn := hs.fromStart hp
  obtain ⟨-, hj⟩ := hs.bounds hp
  rcases seqStep_next h with ⟨-, a, -, ⟨-, rfl⟩ | ⟨-, rfl⟩⟩ |
    ⟨hl, b, -, ⟨-, rfl⟩ | ⟨-, ⟨-, rfl⟩ | ⟨-, rfl⟩⟩⟩ | ⟨-, ⟨-, rfl⟩ | ⟨-, rfl⟩⟩
  case inr.inl.inl => exact ⟨s.curI, s.curJ, rfl, hn, hj hl⟩
  case inr.inr.inr => exact absurd hst (show codeOk ≠ 0x10 by decide)
  all_goals exact absurd (hp.symm.trans ht) nofun

theorem runSeq_hit {n k : Nat} {s t : State} (hp : s.phase = .scanning) (hs : ScanFrom n s)
    (h : runSeq k s = .next t) (ht : t.phase = .idle) (hst : t.status = 0x10) :
    reportedPair n s.cap.toNat t.result := by
  obtain ⟨-, -, hpair⟩ := (runSeq_invariant
    (P := fun u => ScanFrom n u ∧ u.cap = s.cap ∧
      (u.phase = .idle → u.status = 0x10 → reportedPair n s.cap.toNat u.result))
    (fun {u v} hup hu huv => by
      obtain ⟨hfrom, hcap, -⟩ := hu
      exact ⟨seqStep_scanFrom hup hfrom huv, (seqStep_frame huv).cap.trans hcap,
        hcap ▸ seqStep_hit hup hfrom huv⟩)
    ⟨hs, rfl, fun hidle => absurd (hp.symm.trans hidle) nofun⟩).1 t h
  exact hpair ht hst

theorem exec_scan_hit {s t : State} {n : Nat} (h : exec (.scan n) s = .next t) (hst : t.status = 0x10) :
    reportedPair n s.cap.toNat t.result := by
  rcases exec_scan_cases s n with ⟨-, he⟩ | ⟨-, he⟩ | ⟨hn, he⟩
  · obtain rfl := Host.Outcome.next.inj (he.symm.trans h)
    exact absurd (closeCommand_hit hst).1 (show codeStartTooHigh ≠ 0x10 by decide)
  · obtain rfl := Host.Outcome.next.inj (he.symm.trans h)
    exact absurd (closeCommand_hit hst).1 (show codeOk ≠ 0x10 by decide)
  · have hidle := runScan_phase (he.symm.trans h)
    obtain ⟨u, hu, rfl⟩ := runScan_next (he.symm.trans h)
    obtain ⟨hust, hres, hphase⟩ := closeCommand_hit hst
    rw [hres]
    exact runSeq_hit (s := s.enterScan (BitVec.ofNat 8 n)) rfl (scanFrom_enterScan hn) hu
      (hphase.symm.trans hidle) hust

/-- Settles O24: the pair lies below CAP, so below 255, and RESULT holds both its numbers whole. -/
theorem hitNamesALegalPair : Obligations.HitNamesALegalPair := by
  intro s t n h hst
  obtain ⟨i, j, hres, hni, hij, hj⟩ := exec_scan_hit h hst
  have hcap := s.cap.isLt
  have hnat : t.result.toNat = i.toNat * 256 + j.toNat := hres ▸ toNat_encodePair i j
  refine ⟨i, j, hres, hres ▸ resultI_encodePair i j, hres ▸ resultJ_encodePair i j, hnat, hni, hij, hj,
    by omega, by omega, by omega, fun hne => ?_, fun hne => ?_⟩
  · rw [hne, show (0x00FF : BitVec 16).toNat = 255 from rfl] at hnat; omega
  · rw [hne, show (0xFFFF : BitVec 16).toNat = 65535 from rfl] at hnat; omega

/-- Settles O33: the reported pair begins at the start or above it, and RESULT determines the pair. -/
theorem reinvocationMissesPairs : Obligations.ReinvocationMissesPairs := by
  intro s t i h hst a b ha heq
  obtain ⟨i', j', hres, hi, -, -⟩ := exec_scan_hit h hst
  obtain ⟨rfl, -⟩ := encodePair_inj (hres.symm.trans heq)
  omega

/-- Settles O41: no command writes storage but by the writes that overlapped it. -/
theorem commandsLeaveMemoryAndHost : Obligations.CommandsLeaveMemoryAndHost := by
  intro i s t h
  have hf := exec_frame h
  refine ⟨hf.cfg, hf.host, hf.rdata, hf.overlap, hf.storage, fun hw a => ?_⟩
  rw [hf.storage, hw, writeRecords_nil]

/-! The bound on reads (R115). -/

/-- The reads of all the rows from one on with `m` records left, where every record takes part: the rows' first
records, and the pairs (R115). -/
def rowsBound (m : Nat) : Nat := m - 1 + m * (m - 1) / 2

/-- A row that is not the last is one read for its own record and one for each record above it. -/
theorem rowsBound_succ {m : Nat} (h : 1 ≤ m) : rowsBound (m + 1) = 1 + m + rowsBound m := by
  obtain ⟨k, rfl⟩ : ∃ k, m = k + 1 := ⟨m - 1, by omega⟩
  have hpairs : (k + 1 + 1) * (k + 1) = (k + 1) * k + (k + 1) * 2 := by ring
  simp only [rowsBound, Nat.add_sub_cancel, hpairs, Nat.add_mul_div_right _ _ (Nat.zero_lt_two)]
  omega

/-- The most reads the scan may still take, from where its sequencer stands. -/
def readsLeft (s : State) : Nat :=
  match s.phase, s.label with
  | .idle, _ => 0
  | .scanning, .outer => rowsBound (s.cap.toNat - s.curI.toNat)
  | .scanning, .inner => s.cap.toNat - s.curJ.toNat + rowsBound (s.cap.toNat - s.curI.toNat - 1)
  | .scanning, .nextI => rowsBound (s.cap.toNat - s.curI.toNat - 1)

theorem readsLeft_idle {s : State} (hp : s.phase = .idle) : readsLeft s = 0 := by
  simp only [readsLeft, hp]

theorem readsLeft_outer {s : State} (hp : s.phase = .scanning) (hl : s.label = .outer) :
    readsLeft s = rowsBound (s.cap.toNat - s.curI.toNat) := by
  simp only [readsLeft, hp, hl]

theorem readsLeft_inner {s : State} (hp : s.phase = .scanning) (hl : s.label = .inner) :
    readsLeft s = s.cap.toNat - s.curJ.toNat + rowsBound (s.cap.toNat - s.curI.toNat - 1) := by
  simp only [readsLeft, hp, hl]

theorem readsLeft_nextI {s : State} (hp : s.phase = .scanning) (hl : s.label = .nextI) :
    readsLeft s = rowsBound (s.cap.toNat - s.curI.toNat - 1) := by
  simp only [readsLeft, hp, hl]

/-- A micro-step's read comes off what was left: one record of the row, or its own record with the rest of the
row to follow. -/
theorem seqStep_readsLeft {s t : State} (hp : s.phase = .scanning) (hs : SeqInv s) (h : seqStep s = .next t) :
    t.reads + readsLeft t ≤ s.reads + readsLeft s := by
  obtain ⟨hi, hj⟩ := hs hp
  have hi1 : (s.curI + 1).toNat = s.curI.toNat + 1 :=
    toNat_add_one (c := s.cap) (by show s.curI.toNat < s.cap.toNat; omega)
  have hrow := rowsBound_succ (m := s.cap.toNat - s.curI.toNat - 1) (by omega)
  rw [Nat.sub_add_cancel (by omega)] at hrow
  rcases seqStep_next h with ⟨hl, a, -, ⟨-, rfl⟩ | ⟨-, rfl⟩⟩ |
    ⟨hl, b, -, ⟨-, rfl⟩ | ⟨-, ⟨-, rfl⟩ | ⟨-, rfl⟩⟩⟩ | ⟨hl, ⟨-, rfl⟩ | ⟨-, rfl⟩⟩
  · rw [readsLeft_outer hp hl, readsLeft_inner (s := s.countRead.enterInner a) hp rfl]
    simp only [enterInner_reads, enterInner_cap, enterInner_curI, enterInner_curJ, countRead_reads, countRead_cap,
      countRead_curI, hi1]
    omega
  · rw [readsLeft_outer hp hl, readsLeft_nextI (s := s.countRead.skipRow a) hp rfl]
    simp only [skipRow_reads, skipRow_cap, skipRow_curI, countRead_reads, countRead_cap, countRead_curI]
    omega
  · obtain ⟨-, hjc⟩ := hj hl
    rw [readsLeft_inner hp hl, readsLeft_idle (s := s.countRead.reportHit) rfl]
    show s.reads + 1 + 0 ≤ _
    omega
  · obtain ⟨-, hjc⟩ := hj hl
    have hj1 : (s.curJ + 1).toNat = s.curJ.toNat + 1 := toNat_add_one (c := s.cap) hjc
    rw [readsLeft_inner hp hl, readsLeft_inner (s := s.countRead.nextJ) hp rfl]
    simp only [nextJ_reads, nextJ_cap, nextJ_curI, nextJ_curJ, countRead_reads, countRead_cap, countRead_curI,
      countRead_curJ, hj1]
    omega
  · obtain ⟨-, hjc⟩ := hj hl
    rw [readsLeft_inner hp hl, readsLeft_nextI (s := s.countRead.endRow) hp rfl]
    simp only [endRow_reads, endRow_cap, endRow_curI, countRead_reads, countRead_cap, countRead_curI]
    omega
  · rw [readsLeft_nextI hp hl, readsLeft_outer (s := s.nextRow) hp rfl, Nat.sub_sub]
    simp only [nextRow_reads, nextRow_cap, nextRow_curI, hi1, Nat.le_refl]
  · rw [readsLeft_idle (s := s.reportNone) rfl]
    exact Nat.le_add_right _ _

theorem runSeq_reads {k : Nat} {s t : State} (hs : SeqInv s) (h : runSeq k s = .next t) :
    t.reads ≤ s.reads + readsLeft s := by
  obtain ⟨-, hle⟩ := (runSeq_invariant (P := fun u => SeqInv u ∧ u.reads + readsLeft u ≤ s.reads + readsLeft s)
    (fun hup hu huv => ⟨seqStep_seqInv hup hu.1 huv, (seqStep_readsLeft hup hu.1 huv).trans hu.2⟩)
    ⟨hs, Nat.le_refl _⟩).1 t h
  exact (Nat.le_add_right _ _).trans hle

/-- Settles O28: every micro-step takes its read from what is left of the bound. -/
theorem scanReadsAreBounded : Obligations.ScanReadsAreBounded := by
  intro s t n hn h
  rcases exec_scan_cases s n with ⟨hn', -⟩ | ⟨-, he⟩ | ⟨hn', he⟩
  · omega
  · obtain rfl := Host.Outcome.next.inj (he.symm.trans h)
    rw [closeCommand_reads, finish_reads]
    exact Nat.le_add_right _ _
  · obtain ⟨u, hu, rfl⟩ := runScan_next (he.symm.trans h)
    have hle := runSeq_reads (seqInv_enterScan hn') hu
    rw [readsLeft_outer rfl rfl, enterScan_curI, toNat_start hn] at hle
    rw [closeCommand_reads]
    exact hle

end Sys2Proof.Machine

/-! The statements of 60_exceptions.md: which steps are refused, which of a word's conditions is reported, that the
block holds its registers between commands, and what every step keeps. -/

namespace Sys2Proof.Machine

/-! What a step of an IDLE block can come to (R55, R66, R143). -/

/-- What a host action that issues no command and is no reset leaves: the registers, the sequencer and the
parameters as they are, and storage in its canonical form. -/
structure HostFrame (s t : State) : Prop where
  status : t.status = s.status
  result : t.result = s.result
  cap : t.cap = s.cap
  phase : t.phase = s.phase
  overlap : t.overlap = s.overlap
  cfg : t.cfg = s.cfg
  reads : t.reads = s.reads
  storage : Memory.wf s.storage → Memory.wf t.storage

theorem HostFrame.refl (s : State) : HostFrame s s := ⟨rfl, rfl, rfl, rfl, rfl, rfl, rfl, id⟩

theorem HostFrame.trans {s t u : State} (h : HostFrame s t) (k : HostFrame t u) : HostFrame s u where
  status := k.status.trans h.status
  result := k.result.trans h.result
  cap := k.cap.trans h.cap
  phase := k.phase.trans h.phase
  overlap := k.overlap.trans h.overlap
  cfg := k.cfg.trans h.cfg
  reads := k.reads.trans h.reads
  storage := k.storage ∘ h.storage

theorem setHost_hostFrame (s : State) (rest : List HostAction) : HostFrame s (s.setHost rest) :=
  ⟨rfl, rfl, rfl, rfl, rfl, rfl, rfl, id⟩

theorem hostRead_hostFrame {s t : State} {addr width : Nat} (h : hostRead addr width s = .next t) :
    HostFrame s t := by
  unfold hostRead at h
  split at h
  · obtain rfl := Host.Outcome.next.inj h
    exact ⟨rfl, rfl, rfl, rfl, rfl, rfl, rfl, id⟩
  · exact absurd h nofun

/-- A write issues its word at CMD, or is ignored (R27, R55). -/
theorem hostWrite_next {s t : State} {addr width : Nat} {w : Word} {o : Overlap}
    (h : hostWrite addr width w o s = .next t) :
    t = s ∨ (addr = s.cfg.regBase ∧ width = 4 ∧ issueCommand w (s.setOverlap o) = .next t) := by
  unfold hostWrite at h
  split at h
  · rename_i hreg
    obtain ⟨⟨hwidth, -⟩, -⟩ := portAccess_ok hreg
    exact .inr ⟨portAccess_cmd hreg, hwidth, h⟩
  · exact .inl (Host.Outcome.next.inj h).symm
  · exact .inl (Host.Outcome.next.inj h).symm
  · exact .inl (Host.Outcome.next.inj h).symm
  · exact absurd h nofun

/-- An action of the host that is answered changes none of the block's own state, issues a command, or is reset. -/
theorem hostAct_next {a : HostAction} {s t : State} (h : hostAct a s = .next t) :
    HostFrame s t ∨
      (∃ w o, a = .write s.cfg.regBase 4 w o ∧ issueCommand w (s.setOverlap o) = .next t) ∨
      (a = .reset ∧ t = s.resetBlock) := by
  cases a with
  | write addr width w o =>
    obtain rfl | ⟨rfl, rfl, hissue⟩ := hostWrite_next h
    · exact .inl (.refl _)
    · exact .inr (.inl ⟨w, o, rfl, hissue⟩)
  | read addr width => exact .inl (hostRead_hostFrame h)
  | spriteWrite k r =>
    obtain rfl := Host.Outcome.next.inj h
    exact .inl ⟨rfl, rfl, rfl, rfl, rfl, rfl, rfl, fun hm => writeRecord_wf hm _ _ _⟩
  | reset => exact .inr (.inr ⟨rfl, (Host.Outcome.next.inj h).symm⟩)

theorem step_of_no_action {s : State} (hp : s.phase = .idle) (hh : s.host = []) : step s = .next s := by
  simp only [step, hp, nextAction, hh]

/-- A step of an IDLE block that is answered changes none of the block's own state, runs a command, or is a
reset. -/
theorem step_next_of_idle {s t : State} (hp : s.phase = .idle) (h : step s = .next t) :
    HostFrame s t ∨
      (∃ w o rest, s.host = .write s.cfg.regBase 4 w o :: rest ∧
        issueCommand w ((s.setHost rest).setOverlap o) = .next t) ∨
      (∃ rest, s.host = .reset :: rest ∧ t = (s.setHost rest).resetBlock) := by
  cases hh : s.host with
  | nil =>
    obtain rfl := Host.Outcome.next.inj ((step_of_no_action hp hh).symm.trans h)
    exact .inl (.refl s)
  | cons a rest =>
    rw [step_of_idle hp hh] at h
    rcases hostAct_next h with hf | ⟨w, o, rfl, hissue⟩ | ⟨rfl, ht⟩
    · exact .inl ((setHost_hostFrame s rest).trans hf)
    · exact .inr (.inl ⟨w, o, rest, rfl, hissue⟩)
    · exact .inr (.inr ⟨rest, rfl, ht⟩)

/-! What every command leaves in STATUS, RESULT and PHASE, whatever overlaps it (R108, R133, R151). -/

theorem closeCommand_legalCode {s : State} (h : legalCode s.status) : legalCode s.closeCommand.status := by
  rcases closeCommand_cases s with hc | hc
  · rwa [hc]
  · rw [hc]
    exact .inl rfl

theorem closeCommand_resultOk {s : State} (h : resultOk s.result) : resultOk s.closeCommand.result := by
  rcases closeCommand_cases s with hc | hc
  · rwa [hc]
  · rw [hc]
    exact .inl rfl

theorem closeCommand_idle {s : State} (h : s.phase = .idle) : s.closeCommand.phase = .idle := by
  rcases closeCommand_cases s with hc | hc
  · rwa [hc]
  · rw [hc, resetBlock_phase]

/-- A command is answered before any micro-step, with one of the codes the block writes, or is a SCAN with a pair
to examine. -/
theorem issueCommand_atOnce_or_run (w : Word) (s : State) :
    (∃ u : State, issueCommand w s = .next u.closeCommand ∧
      u.phase = s.phase ∧ u.result = s.result ∧ legalCode u.status) ∨
    (∃ n, n + 1 < s.cap.toNat ∧ issueCommand w s = runScan (s.enterScan (BitVec.ofNat 8 n))) := by
  rcases issueCommand_cases w s with ⟨i, -, hi⟩ | ⟨e, -, he⟩
  · rw [hi]
    cases i with
    | cfg n =>
      rcases exec_cfg_cases s n with ⟨-, he⟩ | ⟨-, he⟩
      · exact .inl ⟨_, he, rfl, rfl, by simp [legalCode]⟩
      · exact .inl ⟨_, he, rfl, rfl, by simp [legalCode]⟩
    | scan n =>
      rcases exec_scan_cases s n with ⟨-, he⟩ | ⟨-, he⟩ | ⟨hn, he⟩
      · exact .inl ⟨_, he, rfl, rfl, by simp [legalCode]⟩
      · exact .inl ⟨_, he, rfl, rfl, by simp [legalCode]⟩
      · exact .inr ⟨n, hn, he⟩
    | scanNoOut n =>
      rcases exec_scanNoOut_cases s n with ⟨-, he⟩ | ⟨-, he⟩
      · exact .inl ⟨_, he, rfl, rfl, by simp [legalCode]⟩
      · exact .inl ⟨_, he, rfl, rfl, by simp [legalCode]⟩
  · exact .inl ⟨_, he, rfl, rfl, by simp [legalCode]⟩

/-- The same of a command that is answered. -/
theorem issueCommand_next {w : Word} {s t : State} (h : issueCommand w s = .next t) :
    (∃ u : State, t = u.closeCommand ∧ u.phase = s.phase ∧ u.result = s.result ∧ legalCode u.status) ∨
      ∃ n, n + 1 < s.cap.toNat ∧ runScan (s.enterScan (BitVec.ofNat 8 n)) = .next t := by
  rcases issueCommand_atOnce_or_run w s with ⟨u, he, hu⟩ | ⟨n, hn, he⟩
  · exact .inl ⟨u, Host.Outcome.next.inj (h.symm.trans he), hu⟩
  · exact .inr ⟨n, hn, he.symm.trans h⟩

theorem issueCommand_frame {w : Word} {s t : State} (h : issueCommand w s = .next t) : CommandFrame s t := by
  rcases issueCommand_cases w s with ⟨i, -, hi⟩ | ⟨e, -, he⟩
  · exact exec_frame (hi.symm.trans h)
  · obtain rfl := Host.Outcome.next.inj (he.symm.trans h)
    exact closeCommand_frame (finish_frame s codeFailedOp)

theorem issueCommand_idle {w : Word} {s t : State} (hp : s.phase = .idle) (h : issueCommand w s = .next t) :
    t.phase = .idle := by
  rcases issueCommand_next h with ⟨u, rfl, hu, -⟩ | ⟨n, -, hrun⟩
  · exact closeCommand_idle (hu.trans hp)
  · exact runScan_phase hrun

/-! STATUS.CODE (R133). -/

/-- A micro-step leaves STATUS, or writes the answer of the scan it ends (R110). -/
theorem seqStep_legalCode {s t : State} (hs : legalCode s.status) (h : seqStep s = .next t) :
    legalCode t.status := by
  rcases seqStep_next h with ⟨-, a, -, ⟨-, rfl⟩ | ⟨-, rfl⟩⟩ |
    ⟨-, b, -, ⟨-, rfl⟩ | ⟨-, ⟨-, rfl⟩ | ⟨-, rfl⟩⟩⟩ | ⟨-, ⟨-, rfl⟩ | ⟨-, rfl⟩⟩
  case inr.inl.inl => exact .inr (.inr (.inr (.inl rfl)))
  case inr.inr.inr => exact .inl rfl
  all_goals exact hs

theorem runScan_legalCode {s t : State} (hs : legalCode s.status) (h : runScan s = .next t) :
    legalCode t.status := by
  obtain ⟨u, hu, rfl⟩ := runScan_next h
  exact closeCommand_legalCode
    ((runSeq_invariant (P := fun v => legalCode v.status) (fun _ => seqStep_legalCode) hs).1 u hu)

theorem issueCommand_legalCode {w : Word} {s t : State} (hs : legalCode s.status)
    (h : issueCommand w s = .next t) : legalCode t.status := by
  rcases issueCommand_next h with ⟨u, rfl, -, -, hu⟩ | ⟨n, -, hrun⟩
  · exact closeCommand_legalCode hu
  · exact runScan_legalCode (s := s.enterScan _) hs hrun

theorem step_legalCode {s t : State} (hs : legalCode s.status) (h : step s = .next t) : legalCode t.status := by
  cases hp : s.phase with
  | scanning => exact runScan_legalCode hs (by simpa only [step, hp] using h)
  | idle =>
    rcases step_next_of_idle hp h with hf | ⟨w, o, rest, -, hissue⟩ | ⟨rest, -, rfl⟩
    · rwa [hf.status]
    · exact issueCommand_legalCode (s := (s.setHost rest).setOverlap o) hs hissue
    · exact .inl rfl

/-- The codes the block writes are of the bits 0x01, 0x02, 0x10 and 0x40 (R24). -/
theorem legalCode_mask {c : BitVec 8} (h : legalCode c) : c &&& 0xAC = 0 := by
  rcases h with rfl | rfl | rfl | rfl | rfl <;> decide

/-! RESULT (R108). -/

theorem resultOk_of_reportedPair {n : Nat} {cap : BitVec 8} {v : BitVec 16} (h : reportedPair n cap.toNat v) :
    resultOk v := by
  obtain ⟨i, j, rfl, -, hij, hj⟩ := h
  have hcap := cap.isLt
  rw [resultOk, resultI_encodePair, resultJ_encodePair]
  exact .inr ⟨hij, by omega⟩

theorem runScan_resultOk {n : Nat} {s t : State} (hp : s.phase = .scanning) (hs : ScanFrom n s)
    (hr : resultOk s.result) (h : runScan s = .next t) : resultOk t.result := by
  obtain ⟨u, hu, rfl⟩ := runScan_next h
  apply closeCommand_resultOk
  rcases runSeq_result hu with hres | ⟨hidle, hst⟩
  · rwa [hres]
  · exact resultOk_of_reportedPair (runSeq_hit hp hs hu hidle hst)

theorem issueCommand_resultOk {w : Word} {s t : State} (hs : resultOk s.result)
    (h : issueCommand w s = .next t) : resultOk t.result := by
  rcases issueCommand_next h with ⟨u, rfl, -, hu, -⟩ | ⟨n, hn, hrun⟩
  · exact closeCommand_resultOk (hu ▸ hs)
  · exact runScan_resultOk (s := s.enterScan _) rfl (scanFrom_enterScan hn) hs hrun

/-! What every step keeps. -/

theorem HostFrame.inv {s t : State} (h : HostFrame s t) (hs : Inv s) : Inv t where
  idle := h.phase.trans hs.idle
  quiet := h.overlap.trans hs.quiet
  status := h.status ▸ hs.status
  result := h.result ▸ hs.result
  storage := h.storage hs.storage
  cfg := h.cfg ▸ hs.cfg

theorem resetBlock_inv {s : State} (hs : Inv s) : Inv s.resetBlock where
  idle := rfl
  quiet := hs.quiet
  status := .inl rfl
  result := .inl rfl
  storage := hs.storage
  cfg := hs.cfg

/-- A command issued where all of Inv holds, whatever overlaps it. -/
theorem issueCommand_inv {w : Word} {s t : State} (o : Overlap) (hs : Inv s)
    (h : issueCommand w (s.setOverlap o) = .next t) : Inv t where
  idle := issueCommand_idle (s := s.setOverlap o) hs.idle h
  quiet := (issueCommand_frame h).overlap
  status := issueCommand_legalCode (s := s.setOverlap o) hs.status h
  result := issueCommand_resultOk (s := s.setOverlap o) hs.result h
  storage := (issueCommand_frame h).storage ▸ writeRecords_wf hs.storage s.cfg o.writes
  cfg := (issueCommand_frame h).cfg ▸ hs.cfg

/-- Settles O56: a host action that is no command leaves the block alone, a command closes with all of Inv, and
reset writes OK and no pair. -/
theorem stepKeepsInv : Obligations.StepKeepsInv := by
  intro s t hs h
  rcases step_next_of_idle hs.idle h with hf | ⟨w, o, rest, -, hissue⟩ | ⟨rest, -, rfl⟩
  · exact hf.inv hs
  · exact issueCommand_inv o ((setHost_hostFrame s rest).inv hs) hissue
  · exact resetBlock_inv ((setHost_hostFrame s rest).inv hs)

/-- Settles O58: commands and reset write only the five codes, which have no bit of 0xAC. -/
theorem statusStaysAWrittenCode : Obligations.StatusStaysAWrittenCode :=
  fun _ _ hs h => ⟨step_legalCode hs h, legalCode_mask (step_legalCode hs h)⟩

/-- Settles O51: a step of an IDLE block that is no command and no reset changes none of its own state. -/
theorem idleBlockHoldsItsRegisters : Obligations.IdleBlockHoldsItsRegisters := by
  intro s hp hno
  refine ⟨step_of_no_action hp, fun t h => ?_⟩
  rcases step_next_of_idle hp h with hf | ⟨w, o, rest, hh, -⟩ | ⟨rest, hh, -⟩
  · exact ⟨hf.status, hf.result, hf.cap, hf.phase.trans hp, hf.reads⟩
  · exact absurd ⟨_, rest, hh, .inr ⟨w, o, rfl⟩⟩ hno
  · exact absurd ⟨_, rest, hh, .inl rfl⟩ hno

/-! Which steps are refused (R56, R59, R138). -/

theorem issueCommand_not_refused (w : Word) (s : State) (q : Refusal) : issueCommand w s ≠ .refused q := by
  rcases issueCommand_cases w s with ⟨i, -, he⟩ | ⟨e, -, he⟩
  · exact he ▸ exec_not_refused i s q
  · exact he ▸ nofun

theorem hostRead_refused {s : State} {addr width : Nat} {q : Refusal} (h : hostRead addr width s = .refused q) :
    ¬ definedAccess s.cfg addr width := by
  intro ha
  obtain ⟨t, ht⟩ := hostRead_goesOn ha
  exact absurd (ht.symm.trans h) nofun

theorem hostWrite_refused {s : State} {addr width : Nat} {w : Word} {o : Overlap} {q : Refusal}
    (h : hostWrite addr width w o s = .refused q) : ¬ definedAccess s.cfg addr width := by
  intro ha
  obtain ⟨reg, hreg⟩ := portAccess_defined ha
  rw [hostWrite, hreg] at h
  cases reg with
  | cmd => exact issueCommand_not_refused w _ q h
  | status => exact absurd h nofun
  | result => exact absurd h nofun
  | capacity => exact absurd h nofun

/-- Settles O48: no command is refused, and of the host's actions only a register access can be. -/
theorem onlyUndefinedAccessesAreRefused : Obligations.OnlyUndefinedAccessesAreRefused := by
  intro s q h
  cases hp : s.phase with
  | scanning => exact absurd (by simpa only [step, hp] using h) (runScan_not_refused s q)
  | idle =>
    cases hh : s.host with
    | nil => exact absurd ((step_of_no_action hp hh).symm.trans h) nofun
    | cons a rest =>
      rw [step_of_idle hp hh] at h
      refine ⟨a, rest, rfl, ?_⟩
      cases a with
      | write addr width w o => exact ⟨addr, width, hostWrite_refused (s := s.setHost rest) h, .inr ⟨w, o, rfl⟩⟩
      | read addr width => exact ⟨addr, width, hostRead_refused (s := s.setHost rest) h, .inl rfl⟩
      | spriteWrite k r => exact absurd h nofun
      | reset => exact absurd h nofun

/-! Which of a word's conditions is reported (R134). -/

theorem issueCommand_of_decode {w : Word} {i : Instr} (h : decode w = .ok i) (s : State) :
    issueCommand w s = exec i s := by
  rw [issueCommand, h]

theorem decode_of_scan_opcode {w : Word} (hw : ¬ reservedWord w) (hop : opField w = 0x2#4) :
    decode w = .ok (if outvField w then .scan (opndField w).toNat else .scanNoOut (opndField w).toNat) := by
  have hrsv : rsvField w = 0#11 := by
    by_contra hne
    exact hw (.inr (.inr ⟨hop, hne⟩))
  cases houtv : outvField w <;> simp [decode, hop, hrsv, houtv]

theorem decode_of_cfg_opcode {w : Word} (hw : ¬ reservedWord w) (hop : opField w = 0x1#4) :
    decode w = .ok (.cfg (opndField w).toNat) := by
  have houtv : ¬ outvField w = true := fun h => hw (.inr (.inl ⟨hop, .inl h⟩))
  have hrsv : rsvField w = 0#11 := by
    by_contra hne
    exact hw (.inr (.inl ⟨hop, .inr hne⟩))
  simp [decode, hop, houtv, hrsv]

/-- Settles O12: the decoder answers a reserved word before any check, and both forms of SCAN check the start
first. -/
theorem reportedCodeFollowsPriority : Obligations.ReportedCodeFollowsPriority := by
  intro w s hq n
  refine ⟨fun hw => reservedWordFailsAlone w s hw hq, fun hw hop hn => ?_, fun hw hop hn houtv => ?_,
    fun hw hop hn => ?_⟩
  · obtain ⟨hscan, hnoOut⟩ := scanStartTooHighFails n s hq hn
    rw [issueCommand_of_decode (decode_of_scan_opcode hw hop)]
    split
    · exact hscan
    · exact hnoOut
  · rw [issueCommand_of_decode (decode_of_scan_opcode hw hop), houtv]
    exact (exec_scanNoOut_quiet hq n).trans (by rw [if_neg (Nat.not_le.2 hn)]; rfl)
  · rw [issueCommand_of_decode (decode_of_cfg_opcode hw hop)]
    obtain ⟨-, hfails, -⟩ := cfgResult n s hq
    exact hfails hn

end Sys2Proof.Machine

/-! The statements of 70_reset_and_hazards.md: what reset leaves between commands and during one, a SCAN before any
CFG, and the two stops of a scan at its first read. -/

namespace Sys2Proof.Machine

/-! Reset (R150, R151). -/

/-- Every register has its reset value and the sequencer is IDLE (R33). -/
def registersReset (t : State) : Prop := t.status = 0x00 ∧ t.result = 0x0000 ∧ t.cap = 0 ∧ t.phase = .idle

/-- Reset still comes at the end of a run it was to interrupt: micro-steps count down only a port's silence. -/
theorem SeqFrame.resetAfter {s t : State} {n : Nat} (h : SeqFrame s t)
    (hs : s.overlap.disturbance = .resetAfter n) : t.overlap.disturbance = .resetAfter n := by
  rcases h.disturbance with hd | ⟨m, -, hd, -⟩
  · exact hd.trans hs
  · exact absurd (hs.symm.trans hd) nofun

theorem registersReset_of_closed {u t : State} {o : Host.Outcome State Fault Refusal} {n : Nat}
    (ho : o = .next u.closeCommand) (h : o = .next t) (hd : u.overlap.disturbance = .resetAfter n) :
    registersReset t := by
  obtain rfl := Host.Outcome.next.inj (ho.symm.trans h)
  rw [closeCommand_of_reset hd]
  exact ⟨rfl, rfl, rfl, rfl⟩

/-- Whatever a command would have answered, it is closed with the reset that arrived during it. -/
theorem exec_registersReset {i : Instr} {s t : State} {n : Nat} (hd : s.overlap.disturbance = .resetAfter n)
    (h : exec i s = .next t) : registersReset t := by
  cases i with
  | cfg m =>
    rcases exec_cfg_cases s m with ⟨-, he⟩ | ⟨-, he⟩
    · exact registersReset_of_closed he h hd
    · exact registersReset_of_closed he h hd
  | scan m =>
    rcases exec_scan_cases s m with ⟨-, he⟩ | ⟨-, he⟩ | ⟨-, he⟩
    · exact registersReset_of_closed he h hd
    · exact registersReset_of_closed he h hd
    · obtain ⟨u, hu, rfl⟩ := runScan_next (he.symm.trans h)
      have hf := (enterScan_frame s _).trans (runSeq_frame hu)
      exact registersReset_of_closed rfl rfl (hf.resetAfter hd)
  | scanNoOut m =>
    rcases exec_scanNoOut_cases s m with ⟨-, he⟩ | ⟨-, he⟩
    · exact registersReset_of_closed he h hd
    · exact registersReset_of_closed he h hd

/-- Settles O44: an interrupted command is closed with a reset and changes nothing outside the block, and the port
of a command that reset interrupts does not fall silent, so that only an unwritten record could stop it. -/
theorem resetAbandonsTheCommand : Obligations.ResetAbandonsTheCommand := by
  intro i s n hd
  refine ⟨fun t h => ?_, fun hw => ?_⟩
  · obtain ⟨hstatus, hresult, hcap, hphase⟩ := exec_registersReset hd h
    have hf := exec_frame h
    exact ⟨hstatus, hresult, hcap, hphase, hf.cfg, hf.host, hf.storage⟩
  · exact exec_goesOn (by simp [hd]) fun _ _ k hk _ => hw k hk (Nat.zero_le k)

/-- Settles O43: the step of an IDLE block whose host resets it is `resetBlock`, which writes the registers, the
cursor, the latch and the counter of free values. -/
theorem resetSetsTheRegisters : Obligations.ResetSetsTheRegisters :=
  fun s rest hp hh => ⟨(s.setHost rest).resetBlock, step_of_idle hp hh, rfl⟩

/-! A SCAN before any CFG (R153). -/

/-- Settles O13: no start is below a capacity of 0, and reset leaves the capacity 0. -/
theorem scanBeforeCfgFails : Obligations.ScanBeforeCfgFails := by
  have hfails (n : Nat) (s : State) (hcap : s.cap = 0) (hq : s.overlap = Overlap.quiet) :=
    scanStartTooHighFails n s hq (by rw [hcap]; exact Nat.zero_le n)
  refine ⟨hfails, fun n hn => ?_⟩
  obtain ⟨-, hstep⟩ := stepRunsTheDecodedCommand State.reset (encode (.scan n)) (.scan n) (decodeOfEncode _ hn)
  obtain ⟨hscan, -⟩ := hfails n { State.reset with phase := .idle, overlap := Overlap.quiet } rfl rfl
  exact ⟨_, hstep.trans hscan, rfl, rfl, rfl, rfl⟩

/-! The stops of a scan at its first read (R110, R154, R161). -/

theorem sprRead_unwritten {s : State} {k : BitVec 8} (hq : s.overlap = Overlap.quiet) (hk : k < s.cap)
    (hr : recordAt s k.toNat = none) : sprRead s k = .error (.unwrittenRecord k) := by
  have hw : s.overlap.writes = [] := by rw [hq]; rfl
  simp [sprRead, BitVec.not_le.2 hk, hq, portWord_of_no_writes hw, hr]

theorem sprRead_silent {s : State} {k : BitVec 8} (hd : s.overlap.disturbance = .portSilentAfter 0)
    (hk : k < s.cap) : sprRead s k = .error .spritePortSilent := by
  simp [sprRead, BitVec.not_le.2 hk, hd]

/-- A run that no reset cuts off stops where its first micro-step does. -/
theorem runScan_of_seqStep_fault {s : State} {f : Fault} (hs : s.overlap.noReset) (hp : s.phase = .scanning)
    (h : seqStep s = .fault f) : runScan s = .fault f := by
  have hpos : 0 < seqBudget s := by
    rw [seqBudget_of_noReset hs]
    exact Nat.zero_lt_of_lt (seqMeasure_lt s)
  obtain ⟨b, hb⟩ := Nat.exists_eq_add_one.2 hpos
  rw [runScan, hb, runSeq, hp, h]

/-- A SCAN with a pair to examine begins with the read of its start, and stops where that read does (R110). -/
theorem exec_scan_first_read_error {s : State} {n : Nat} {f : Fault} (hs : s.overlap.noReset)
    (hn : n + 1 < s.cap.toNat)
    (hr : sprRead (s.enterScan (BitVec.ofNat 8 n)) (BitVec.ofNat 8 n) = .error f) :
    exec (.scan n) s = .fault f := by
  rw [exec_scan_run hn]
  apply runScan_of_seqStep_fault (s := s.enterScan (BitVec.ofNat 8 n)) hs rfl
  rw [seqStep, enterScan_label, stepOuter, enterScan_curI, hr]

theorem start_lt_cap {n : Nat} {c : BitVec 8} (h : n < c.toNat) : BitVec.ofNat 8 n < c := by
  rwa [BitVec.lt_def, toNat_start h]

/-- Settles O38: the first read is of record n, which holds no word. -/
theorem unwrittenRecordFaults : Obligations.UnwrittenRecordFaults := by
  intro s n hq hn hr
  have hlt : n < s.cap.toNat := Nat.lt_of_succ_lt hn
  have hs : s.overlap.noReset := by rw [hq]; exact nofun
  refine exec_scan_first_read_error hs hn (sprRead_unwritten hq (start_lt_cap hlt) ?_)
  rw [toNat_start hlt]
  exact hr

/-- Settles O39: the first read finds the port silent. -/
theorem silentPortHangsTheScan : Obligations.SilentPortHangsTheScan := by
  intro s n hd hn
  have hs : s.overlap.noReset := by rw [Overlap.noReset, hd]; exact nofun
  exact exec_scan_first_read_error hs hn (sprRead_silent hd (start_lt_cap (Nat.lt_of_succ_lt hn)))

end Sys2Proof.Machine
